-- ==== Sys2Proof/Word.lean ====
section
/-! DEFINITION. The two word types of the machine (spec/00_scope.md R4). -/

namespace Sys2Proof

/-- A byte: 8 bits, unsigned (R7). -/
abbrev Byte := BitVec 8

/-- An address, and the width of SP and PC: 16 bits, unsigned (R4, R7). -/
abbrev Addr := BitVec 16

end Sys2Proof
end

