-- ==== Sys2Proof/Syntax.lean ====
section
/-! DEFINITION. Dispatch-table entries and the sixteen instructions (spec/30_encoding.md R54, R55). -/

namespace Sys2Proof

/-- The operation kind of an entry (R54). -/
inductive Kind where
  | load
  | store
deriving DecidableEq, Repr

/-- The target register of an entry (R54). -/
inductive Reg where
  | a
  | x
  | y
deriving DecidableEq, Repr

/-- The five addressing modes (R52, 40_addressing.md R71 to R75). -/
inductive Mode where
  | immediate
  | zeroPage
  | zeroPageX
  | absolute
  | absoluteX
deriving DecidableEq, Repr

/-- A dispatch-table entry: a triple, with no stored length (R54; 90_conflicts.md C6). -/
structure Entry where
  kind : Kind
  reg : Reg
  mode : Mode
deriving DecidableEq, Repr

/-- One constructor per row of spec/opcode_table.json. `d8` is the operand byte of format B2; `lo` and `hi`
are the operand bytes of format B3, in memory order (R51). -/
inductive Instr where
  /-- LDA #d8 (R82) -/
  | ldaImm (d8 : Byte)
  /-- LDA d8 (R83) -/
  | ldaZp (d8 : Byte)
  /-- LDA d8,X (R84) -/
  | ldaZpX (d8 : Byte)
  /-- LDA a16 (R85) -/
  | ldaAbs (lo hi : Byte)
  /-- LDA a16,X (R86) -/
  | ldaAbsX (lo hi : Byte)
  /-- LDX #d8 (R87) -/
  | ldxImm (d8 : Byte)
  /-- LDX d8 (R88) -/
  | ldxZp (d8 : Byte)
  /-- LDX a16 (R89) -/
  | ldxAbs (lo hi : Byte)
  /-- LDY #d8 (R90) -/
  | ldyImm (d8 : Byte)
  /-- LDY d8 (R91) -/
  | ldyZp (d8 : Byte)
  /-- LDY d8,X (R92) -/
  | ldyZpX (d8 : Byte)
  /-- LDY a16 (R93) -/
  | ldyAbs (lo hi : Byte)
  /-- LDY a16,X (R94) -/
  | ldyAbsX (lo hi : Byte)
  /-- STA d8 (R101) -/
  | staZp (d8 : Byte)
  /-- STX d8 (R102) -/
  | stxZp (d8 : Byte)
  /-- STY d8 (R103) -/
  | styZp (d8 : Byte)
deriving DecidableEq, Repr

/-- The (kind, register, mode) triple of an instruction: the columns of R55. -/
def Instr.entry : Instr → Entry
  | .ldaImm _ => ⟨.load, .a, .immediate⟩
  | .ldaZp _ => ⟨.load, .a, .zeroPage⟩
  | .ldaZpX _ => ⟨.load, .a, .zeroPageX⟩
  | .ldaAbs _ _ => ⟨.load, .a, .absolute⟩
  | .ldaAbsX _ _ => ⟨.load, .a, .absoluteX⟩
  | .ldxImm _ => ⟨.load, .x, .immediate⟩
  | .ldxZp _ => ⟨.load, .x, .zeroPage⟩
  | .ldxAbs _ _ => ⟨.load, .x, .absolute⟩
  | .ldyImm _ => ⟨.load, .y, .immediate⟩
  | .ldyZp _ => ⟨.load, .y, .zeroPage⟩
  | .ldyZpX _ => ⟨.load, .y, .zeroPageX⟩
  | .ldyAbs _ _ => ⟨.load, .y, .absolute⟩
  | .ldyAbsX _ _ => ⟨.load, .y, .absoluteX⟩
  | .staZp _ => ⟨.store, .a, .zeroPage⟩
  | .stxZp _ => ⟨.store, .x, .zeroPage⟩
  | .styZp _ => ⟨.store, .y, .zeroPage⟩

end Sys2Proof
end

