-- ==== Sys2Proof/Config.lean ====
section
/-! DEFINITION. The machine's named parameters (spec/00_scope.md R5). They are fixed before reset and are never
state (R6). This hardware leaves no value free (spec/93_implementation_defined.md), so no opaque constant stands here. -/

namespace Sys2Proof

/-- ORIGIN, SP_RESET and IMAGE (R5). The defaults are the spec's: DESIGN CHOICE of the spec (D4), log entry 2.
IMAGE has no default. -/
structure Params where
  origin : Addr := 0x0C00#16
  spReset : Addr := 0x0100#16
  image : List Byte
deriving DecidableEq, Repr

/-- The type of DISPATCH: a partial function from a byte to an entry (R5, R54). The default table of R55 is
`dispatch` in Sys2Proof/Decode.lean. -/
abbrev DispatchTable := Byte → Option Entry

end Sys2Proof
end

