-- ==== Sys2Proof/WellFormed.lean ====
section
/-! DEFINITION. Well-formedness of entries, instructions and dispatch tables (spec/30_encoding.md R56). -/

namespace Sys2Proof

/-- R56 items 5 and 6: a Store entry has mode Zero Page. (Item 5's ranges are the types of `Entry`.) -/
def Entry.wf (e : Entry) : Bool :=
  match e.kind with
  | .load => true
  | .store => decide (e.mode = .zeroPage)

/-- An instruction is well formed when its entry is. Operand bytes are unconstrained (R53; 60_exceptions.md R132:
an illegal operand is impossible) and their ranges are the types of the fields, so every `Instr` passes. -/
def Instr.wf (i : Instr) : Bool := i.entry.wf

/-- What the source settles about DISPATCH, items 1 to 8 of R56 in order; items 5 and 6 are `Entry.wf`, and item 9
(finite, fixed) holds of any function on bytes that is no part of the state. -/
abbrev MeetsR56 (D : DispatchTable) : Prop :=
  D 0xA9 = some ⟨.load, .a, .immediate⟩ ∧
  D 0xA5 = some ⟨.load, .a, .zeroPage⟩ ∧
  D 0x85 = some ⟨.store, .a, .zeroPage⟩ ∧
  D 0xFF = none ∧
  (∀ op : Byte, (D op).all Entry.wf = true) ∧
  ((∃ op : Byte, D op = some ⟨.store, .a, .zeroPage⟩) ∧
    (∃ op : Byte, D op = some ⟨.store, .x, .zeroPage⟩) ∧
    (∃ op : Byte, D op = some ⟨.store, .y, .zeroPage⟩) ∧
    (∃ op : Byte, D op = some ⟨.load, .y, .zeroPage⟩)) ∧
  (∃ op : Byte, D op = some ⟨.load, .a, .zeroPageX⟩ ∨ D op = some ⟨.load, .x, .zeroPageX⟩ ∨
    D op = some ⟨.load, .y, .zeroPageX⟩)

end Sys2Proof
end

