-- ==== Sys2Proof/Decode.lean ====
section
/-! DEFINITION. Formats, lengths, the default dispatch table, the decoder and the encoder (spec/30_encoding.md). -/

namespace Sys2Proof

/-- The two instruction formats (R51). -/
inductive Format where
  | b2
  | b3
deriving DecidableEq, Repr

/-- The format of a mode (R52). -/
def Mode.format : Mode → Format
  | .immediate => .b2
  | .zeroPage => .b2
  | .zeroPageX => .b2
  | .absolute => .b3
  | .absoluteX => .b3

/-- LEN(mode), the instruction's length in bytes (R52). Absolute,X takes two operand bytes (D12, log entry 12). -/
def Mode.len (m : Mode) : Nat :=
  match m.format with
  | .b2 => 2
  | .b3 => 3

/-- The 16-bit address operand: hi * 256 + lo, the low byte at the lower address (R53; 20_memory.md R35). -/
def addrOf (lo hi : Byte) : Addr := hi ++ lo

/-- The default value of DISPATCH, row by row as R55 lists it. 0xA9, 0xA5 and 0x85 are the source's; the other
thirteen bytes, and the absence of an X-indexed Load X, are the spec's own choice (D1, D2): DESIGN CHOICE, unsafe,
log entry 1. -/
def dispatchTable : List (Byte × Entry) :=
  [ (0xA9, ⟨.load, .a, .immediate⟩),
    (0xA5, ⟨.load, .a, .zeroPage⟩),
    (0xB5, ⟨.load, .a, .zeroPageX⟩),
    (0xAD, ⟨.load, .a, .absolute⟩),
    (0xBD, ⟨.load, .a, .absoluteX⟩),
    (0xA2, ⟨.load, .x, .immediate⟩),
    (0xA6, ⟨.load, .x, .zeroPage⟩),
    (0xAE, ⟨.load, .x, .absolute⟩),
    (0xA0, ⟨.load, .y, .immediate⟩),
    (0xA4, ⟨.load, .y, .zeroPage⟩),
    (0xB4, ⟨.load, .y, .zeroPageX⟩),
    (0xAC, ⟨.load, .y, .absolute⟩),
    (0xBC, ⟨.load, .y, .absoluteX⟩),
    (0x85, ⟨.store, .a, .zeroPage⟩),
    (0x86, ⟨.store, .x, .zeroPage⟩),
    (0x84, ⟨.store, .y, .zeroPage⟩) ]

/-- DISPATCH at its default: a lookup by the whole opcode byte (R54, R59). -/
def dispatch (op : Byte) : Option Entry := dispatchTable.lookup op

/-- The instruction an entry and its operand bytes name; `none` for a triple that has no row in the table (an
X-indexed Load X, a Store outside the zero page). A B2 row does not look at `b2`. -/
def instrOf (e : Entry) (b1 b2 : Byte) : Option Instr :=
  match e.kind, e.reg, e.mode with
  | .load, .a, .immediate => some (.ldaImm b1)
  | .load, .a, .zeroPage => some (.ldaZp b1)
  | .load, .a, .zeroPageX => some (.ldaZpX b1)
  | .load, .a, .absolute => some (.ldaAbs b1 b2)
  | .load, .a, .absoluteX => some (.ldaAbsX b1 b2)
  | .load, .x, .immediate => some (.ldxImm b1)
  | .load, .x, .zeroPage => some (.ldxZp b1)
  | .load, .x, .zeroPageX => none
  | .load, .x, .absolute => some (.ldxAbs b1 b2)
  | .load, .x, .absoluteX => none
  | .load, .y, .immediate => some (.ldyImm b1)
  | .load, .y, .zeroPage => some (.ldyZp b1)
  | .load, .y, .zeroPageX => some (.ldyZpX b1)
  | .load, .y, .absolute => some (.ldyAbs b1 b2)
  | .load, .y, .absoluteX => some (.ldyAbsX b1 b2)
  | .store, .a, .zeroPage => some (.staZp b1)
  | .store, .x, .zeroPage => some (.stxZp b1)
  | .store, .y, .zeroPage => some (.styZp b1)
  | .store, _, .immediate => none
  | .store, _, .zeroPageX => none
  | .store, _, .absolute => none
  | .store, _, .absoluteX => none

/-- Why a byte sequence is no instruction. -/
inductive DecodeReject where
  /-- The opcode byte has no dispatch entry (R57). This is what halts the machine. -/
  | unmapped (op : Byte)
  /-- The entry has no row in the opcode table. The default table holds no such entry. -/
  | noRow (e : Entry)
  /-- The byte list ends before the instruction does. The machine never sees this: memory has no end (R33). -/
  | truncated
deriving DecidableEq, Repr

/-- The instruction of an entry, with the bytes that follow it. -/
def decodeAs (e : Entry) (b1 b2 : Byte) (rest : List Byte) : Except DecodeReject (Instr × List Byte) :=
  match instrOf e b1 b2 with
  | some i => .ok (i, rest)
  | none => .error (.noRow e)

/-- The decoding procedure of R58: look the whole opcode byte up, take the mode's operand bytes, and return the
instruction with the bytes after it. Total on any byte list. -/
def decode : List Byte → Except DecodeReject (Instr × List Byte)
  | [] => .error .truncated
  | op :: tail =>
    match dispatch op with
    | none => .error (.unmapped op)
    | some e =>
      match e.mode.format, tail with
      | .b2, b1 :: rest => decodeAs e b1 0 rest
      | .b3, b1 :: b2 :: rest => decodeAs e b1 b2 rest
      | .b2, [] => .error .truncated
      | .b3, [] => .error .truncated
      | .b3, [_] => .error .truncated

/-- The bytes of an instruction numbered as spec/opcode_table.json numbers it: bits 7..0 are byte 0, bits 15..8
byte 1, bits 23..16 byte 2; bits from `nbits` up are zero. Three bytes, the longest instruction (R58). -/
def tableBytes (nbits w : Nat) : List Byte :=
  [BitVec.ofNat 8 (w % 2 ^ nbits), BitVec.ofNat 8 (w % 2 ^ nbits / 256), BitVec.ofNat 8 (w % 2 ^ nbits / 65536)]

/-- The instruction the decoder reads from a table word. -/
def decodeTableWord (nbits w : Nat) : Option Instr :=
  match decode (tableBytes nbits w) with
  | .ok (i, _) => some i
  | .error _ => none

/-- Byte 0 of an instruction, written from the "Encoding" of R82 to R94 and R101 to R103 (log entry 1). -/
def opcode : Instr → Byte
  | .ldaImm _ => 0xA9
  | .ldaZp _ => 0xA5
  | .ldaZpX _ => 0xB5
  | .ldaAbs _ _ => 0xAD
  | .ldaAbsX _ _ => 0xBD
  | .ldxImm _ => 0xA2
  | .ldxZp _ => 0xA6
  | .ldxAbs _ _ => 0xAE
  | .ldyImm _ => 0xA0
  | .ldyZp _ => 0xA4
  | .ldyZpX _ => 0xB4
  | .ldyAbs _ _ => 0xAC
  | .ldyAbsX _ _ => 0xBC
  | .staZp _ => 0x85
  | .stxZp _ => 0x86
  | .styZp _ => 0x84

/-- The operand bytes of an instruction in memory order (R51). -/
def operandBytes : Instr → List Byte
  | .ldaImm d8 | .ldaZp d8 | .ldaZpX d8 | .ldxImm d8 | .ldxZp d8 | .ldyImm d8 | .ldyZp d8 | .ldyZpX d8
  | .staZp d8 | .stxZp d8 | .styZp d8 => [d8]
  | .ldaAbs lo hi | .ldaAbsX lo hi | .ldxAbs lo hi | .ldyAbs lo hi | .ldyAbsX lo hi => [lo, hi]

/-- The bytes of an instruction (R51, R60). -/
def encode (i : Instr) : List Byte := opcode i :: operandBytes i

end Sys2Proof
end

