-- ==== Sys2Proof/Machine/Memory.lean ====
section
/-! DEFINITION. The memory array M as plain data, and the Memory Bus operations read, write and load
(spec/20_memory.md R30 to R34). -/

namespace Sys2Proof.Machine

/-- M: the (address, byte) pairs of the locations that do not hold 0x00, addresses strictly rising. An address
with no pair reads 0x00, the value every byte has when M is created (10_state.md R21, R25). DESIGN CHOICE (the list
form), safe: log entry 9. -/
abbrev Memory := List Host.Cell

/-- The byte at an index below 65536. -/
def Memory.lookup : Memory → Nat → Byte
  | [], _ => 0
  | c :: m, a => if c.1 = a then c.2 else Memory.lookup m a

/-- MemRead(addr, 1): any non-negative address, reduced mod 65536 before indexing (R31). -/
def Memory.read (m : Memory) (addr : Nat) : Byte := Memory.lookup m (addr % 65536)

/-- Places a pair before the first larger address. -/
def Memory.insert : Memory → Nat → Byte → Memory
  | [], a, v => [(a, v)]
  | c :: m, a, v => if c.1 < a then c :: Memory.insert m a v else (a, v) :: c :: m

/-- Takes an index's pair away, so that it reads 0x00. -/
def Memory.erase (m : Memory) (a : Nat) : Memory := m.filter (fun c => c.1 != a)

/-- MemWrite(addr, 1, v): any non-negative address, reduced mod 65536 before indexing; no other location changes;
cannot fail (R32). Writing 0x00 takes the pair away, which keeps the canonical form. -/
def Memory.write (m : Memory) (addr : Nat) (v : Byte) : Memory :=
  if v = 0 then Memory.erase m (addr % 65536)
  else Memory.insert (Memory.erase m (addr % 65536)) (addr % 65536) v

/-- LoadImage(origin, bytes): the bytes in increasing order, each index wrapped mod 65536. It neither rejects an
image that passes the top of memory nor one longer than memory (R34, D10, D11; log entry 11). -/
def Memory.loadImage : Memory → Nat → List Byte → Memory
  | m, _, [] => m
  | m, origin, b :: bytes => Memory.loadImage (Memory.write m origin b) (origin + 1) bytes

/-- The canonical form: addresses strictly rise and are below 65536, and no pair holds 0x00. -/
abbrev Memory.wf (m : Memory) : Prop :=
  m.Pairwise (fun c d => c.1 < d.1) ∧ ∀ c ∈ m, c.1 < 65536 ∧ c.2 ≠ 0

end Sys2Proof.Machine
end

