-- ==== Sys2Proof/Machine/State.lean ====
section
/-! DEFINITION. The whole state of the machine (spec/10_state.md R10), its reset, and the reasons a step can stop. -/

namespace Sys2Proof.Machine

/-- The execution loop's state (R19). -/
inductive RunState where
  | running
  | halted
deriving DecidableEq, Repr

/-- The complete state of R10, "and nothing else": no flags (R17), no control registers (R18), no hidden state
(R22), and not the trace, which is an output (R27). -/
structure State where
  /-- A, the accumulator (R11) -/
  a : Byte
  /-- X, the index register (R12) -/
  x : Byte
  /-- Y, the second data register (R13) -/
  y : Byte
  /-- SP, 16 bits, read and written by no instruction (R14) -/
  sp : Addr
  /-- PC, the address of the next opcode byte (R15) -/
  pc : Addr
  /-- run (R19) -/
  run : RunState
  /-- halt_info: none, or the unmapped opcode byte and the address it was fetched from (R20; D8, log entry 5) -/
  haltInfo : Option (Byte × Addr)
  /-- M, the 65536-byte array (R21) -/
  mem : Memory
deriving DecidableEq, Repr

/-- Why a step can stop. No step of this machine does: "no error path exists" (60_exceptions.md R132). -/
inductive Fault where
  /-- Raised only by `performStore`, that is by `stepWith` under a dispatch table that breaks R56 item 6 with a Store
  entry in Immediate mode for this register, which R100 says "has no meaning (there is no address)". `exec` and `step`
  never raise it. Safe: it stops where the spec gives no effect. DESIGN CHOICE, log entry 8. -/
  | storeWithoutAddress (r : Reg)
deriving DecidableEq, Repr

/-- Why an instruction has no meaning. -/
inductive Refusal where
  /-- Raised only by an arm of `exec` whose instruction is not modelled; every arm is. Safe: it stops the run. -/
  | notModelled (mnemonic : String)
deriving DecidableEq, Repr

/-- The state after reset for any parameters, in the order of 70_reset_and_hazards.md R150: zeroed memory, the
register file, the image at ORIGIN, then Running. -/
def State.resetWith (p : Params) : State where
  a := 0
  x := 0
  y := 0
  sp := p.spReset
  pc := p.origin
  run := .running
  haltInfo := none
  mem := Memory.loadImage [] p.origin.toNat p.image

/-- The state after reset with ORIGIN and SP_RESET at their defaults (R5, R25) and the empty IMAGE (R5 gives IMAGE no
default; R150 is defined for it). DESIGN CHOICE, unsafe: log entries 2 and 3. -/
def State.reset : State where
  a := 0
  x := 0
  y := 0
  sp := 0x0100#16
  pc := 0x0C00#16
  run := .running
  haltInfo := none
  mem := []

end Sys2Proof.Machine
end

