-- ==== Sys2Proof/Machine/Ops.lean ====
section
/-! DEFINITION. The named operations over registers and memory, the Load and Store operations
(spec/41_load.md R81, spec/42_store.md R100), the halt (spec/43_execution_loop.md R115) and the reset input. -/

namespace Sys2Proof.Machine

/-- What a step or a meaning answers. -/
abbrev Result := Host.Outcome State Fault Refusal

/-- MemRead(addr, 1) (20_memory.md R31). -/
def State.memRead (s : State) (addr : Nat) : Byte := Memory.read s.mem addr

/-- MemWrite(addr, 1, v) (20_memory.md R32). -/
def State.memWrite (s : State) (addr : Nat) (v : Byte) : State := { s with mem := Memory.write s.mem addr v }

/-- x[r], read (00_scope.md R7). -/
def State.reg (s : State) (r : Reg) : Byte :=
  match r with
  | .a => s.a
  | .x => s.x
  | .y => s.y

/-- x[r] <- v: the byte is stored as it is (10_state.md R24). -/
def State.setReg (s : State) (r : Reg) (v : Byte) : State :=
  match r with
  | .a => { s with a := v }
  | .x => { s with x := v }
  | .y => { s with y := v }

/-- pc <- (PC + LEN(mode)) mod 65536, the last action of an executed instruction (R114). -/
def State.advance (s : State) (m : Mode) : State := { s with pc := s.pc + BitVec.ofNat 16 m.len }

/-- The end of every Load: x[r] <- v, then the PC advance (R81). -/
def loadInto (r : Reg) (m : Mode) (v : Byte) (s : State) : State := (s.setReg r v).advance m

/-- A Load in a memory mode: v = MemRead(ea, 1), read before the target is written (R81, 40_addressing.md R77). -/
def loadFrom (r : Reg) (m : Mode) (ea : Addr) (s : State) : State := loadInto r m (s.memRead ea.toNat) s

/-- A Store: MemWrite(ea, 1, x[r]), then the PC advance (R100). -/
def storeTo (r : Reg) (m : Mode) (ea : Addr) (s : State) : State := (s.memWrite ea.toNat (s.reg r)).advance m

/-- raise Halt(op, PC): the Running to Halted transition, the machine's one exception-like event (R115;
60_exceptions.md R130, R135). It saves nothing, and PC stays on the unmapped byte. There is no return from it
(60_exceptions.md R136). -/
def enterHalt (op : Byte) (s : State) : State := { s with run := .halted, haltInfo := some (op, s.pc) }

/-- The reset input, in any state: R150 in full, keeping nothing of the old run (70_reset_and_hazards.md R152; D9). A
host operation and not a step: DESIGN CHOICE, log entry 7. -/
def assertReset (p : Params) (_old : State) : State := State.resetWith p

end Sys2Proof.Machine
end

