-- ==== Sys2Proof/Machine/Operands.lean ====
section
/-! DEFINITION. The addressing-mode resolver (spec/40_addressing.md). This hardware has no flags (spec/10_state.md
R17), so the package has no Flags file. -/

namespace Sys2Proof.Machine

/-- What the resolver returns: a value or an effective address (R70). -/
inductive Resolved where
  | value (v : Byte)
  | ea (addr : Addr)
deriving DecidableEq, Repr

/-- Zero Page: zext_16(b1) (R72). -/
def eaZeroPage (b1 : Byte) : Addr := b1.setWidth 16

/-- Zero Page,X: the sum is cut to 8 bits before it is widened (R73, R76). -/
def eaZeroPageX (b1 x : Byte) : Addr := (b1 + x).setWidth 16

/-- Absolute: {b2, b1} (R74). -/
def eaAbsolute (b1 b2 : Byte) : Addr := addrOf b1 b2

/-- Absolute,X: X is zero-extended and added to the whole 16-bit base; a carry out of bit 15 is lost (R75; D12, log
entry 12). -/
def eaAbsoluteX (b1 b2 x : Byte) : Addr := addrOf b1 b2 + x.setWidth 16

/-- The resolver on operand bytes already read (R70). -/
def resolveBytes (m : Mode) (b1 b2 x : Byte) : Resolved :=
  match m with
  | .immediate => .value b1
  | .zeroPage => .ea (eaZeroPage b1)
  | .zeroPageX => .ea (eaZeroPageX b1 x)
  | .absolute => .ea (eaAbsolute b1 b2)
  | .absoluteX => .ea (eaAbsoluteX b1 b2 x)

/-- The opcode byte M[PC] (43_execution_loop.md R111). -/
def State.opcodeByte (s : State) : Byte := s.memRead s.pc.toNat

/-- b1 = MemRead((PC + 1) mod 65536, 1) (R70). -/
def State.operand1 (s : State) : Byte := s.memRead (s.pc + 1).toNat

/-- b2 = MemRead((PC + 2) mod 65536, 1) (R70). -/
def State.operand2 (s : State) : Byte := s.memRead (s.pc + 2).toNat

/-- Resolve(mode): a pure function of the mode, PC, X and M (R70). A mode of format B2 does not use `operand2`. -/
def resolve (m : Mode) (s : State) : Resolved := resolveBytes m s.operand1 s.operand2 s.x

end Sys2Proof.Machine
end

