-- ==== Sys2Proof/Machine/Load.lean ====
section
/-! DEFINITION. The thirteen Load instructions (spec/41_load.md R82 to R94), each over the Load operation of R81. -/

namespace Sys2Proof.Machine

/-- LDA #d8 (R82). -/
def execLdaImm (d8 : Byte) (s : State) : Result := .next (loadInto .a .immediate d8 s)

/-- LDA d8 (R83). -/
def execLdaZp (d8 : Byte) (s : State) : Result := .next (loadFrom .a .zeroPage (eaZeroPage d8) s)

/-- LDA d8,X (R84). -/
def execLdaZpX (d8 : Byte) (s : State) : Result := .next (loadFrom .a .zeroPageX (eaZeroPageX d8 s.x) s)

/-- LDA a16 (R85). -/
def execLdaAbs (lo hi : Byte) (s : State) : Result := .next (loadFrom .a .absolute (eaAbsolute lo hi) s)

/-- LDA a16,X (R86). -/
def execLdaAbsX (lo hi : Byte) (s : State) : Result := .next (loadFrom .a .absoluteX (eaAbsoluteX lo hi s.x) s)

/-- LDX #d8 (R87). -/
def execLdxImm (d8 : Byte) (s : State) : Result := .next (loadInto .x .immediate d8 s)

/-- LDX d8 (R88). -/
def execLdxZp (d8 : Byte) (s : State) : Result := .next (loadFrom .x .zeroPage (eaZeroPage d8) s)

/-- LDX a16 (R89). -/
def execLdxAbs (lo hi : Byte) (s : State) : Result := .next (loadFrom .x .absolute (eaAbsolute lo hi) s)

/-- LDY #d8 (R90). -/
def execLdyImm (d8 : Byte) (s : State) : Result := .next (loadInto .y .immediate d8 s)

/-- LDY d8 (R91). -/
def execLdyZp (d8 : Byte) (s : State) : Result := .next (loadFrom .y .zeroPage (eaZeroPage d8) s)

/-- LDY d8,X (R92). -/
def execLdyZpX (d8 : Byte) (s : State) : Result := .next (loadFrom .y .zeroPageX (eaZeroPageX d8 s.x) s)

/-- LDY a16 (R93). -/
def execLdyAbs (lo hi : Byte) (s : State) : Result := .next (loadFrom .y .absolute (eaAbsolute lo hi) s)

/-- LDY a16,X (R94). -/
def execLdyAbsX (lo hi : Byte) (s : State) : Result := .next (loadFrom .y .absoluteX (eaAbsoluteX lo hi s.x) s)

end Sys2Proof.Machine
end

