-- ==== Sys2Proof/Machine/Store.lean ====
section
/-! DEFINITION. The three Store instructions (spec/42_store.md R101 to R103), each over the Store operation of R100. -/

namespace Sys2Proof.Machine

/-- STA d8 (R101). -/
def execStaZp (d8 : Byte) (s : State) : Result := .next (storeTo .a .zeroPage (eaZeroPage d8) s)

/-- STX d8 (R102). -/
def execStxZp (d8 : Byte) (s : State) : Result := .next (storeTo .x .zeroPage (eaZeroPage d8) s)

/-- STY d8 (R103). -/
def execStyZp (d8 : Byte) (s : State) : Result := .next (storeTo .y .zeroPage (eaZeroPage d8) s)

end Sys2Proof.Machine
end

