-- ==== Sys2Proof/Machine/Loop.lean ====
section
/-! DEFINITION. Fetching and decoding the instruction at PC, and Step for a parameter dispatch table
(spec/43_execution_loop.md R110 to R116). `step` of Machine/Step.lean is the machine; `stepWith` is R110's own
pseudocode with DISPATCH left a parameter (spec/00_scope.md R5; D3), and agrees with `step` at the default table. -/

namespace Sys2Proof.Machine

/-- The bytes at PC, PC + 1 and PC + 2, each address mod 65536: the longest instruction (30_encoding.md R50, R58).
Looking at all three whatever the length changes nothing, since a read has no side effect (20_memory.md R38): DEDUCED,
safe, log entry 10. `busTransfers` counts only the reads R45 lists. -/
def State.fetchBytes (s : State) : List Byte := [s.opcodeByte, s.operand1, s.operand2]

/-- Fetch and decode at PC (R111, R112; 30_encoding.md R58). -/
def fetchInstr (s : State) : Except DecodeReject Instr :=
  match decode s.fetchBytes with
  | .ok (i, _) => .ok i
  | .error r => .error r

/-- The Load step of R81 for an entry (Load, r, m). -/
def performLoad (r : Reg) (m : Mode) (s : State) : State :=
  match resolve m s with
  | .value v => loadInto r m v s
  | .ea addr => loadFrom r m addr s

/-- The Store step of R100 for an entry (Store, r, m). With no address it stops: DESIGN CHOICE, safe, log entry 8. -/
def performStore (r : Reg) (m : Mode) (s : State) : Result :=
  match resolve m s with
  | .value _ => .fault (.storeWithoutAddress r)
  | .ea addr => .next (storeTo r m addr s)

/-- Step (R110) for the dispatch table `D`. In Halted it is the identity (R116; D20, log entry 4). -/
def stepWith (D : DispatchTable) (s : State) : Result :=
  match s.run with
  | .halted => .next s
  | .running =>
    match D s.opcodeByte with
    | none => .next (enterHalt s.opcodeByte s)
    | some e =>
      match e.kind with
      | .load => .next (performLoad e.reg e.mode s)
      | .store => performStore e.reg e.mode s

end Sys2Proof.Machine
end

