-- ==== Sys2Proof/Machine/Step.lean ====
section
/-! DEFINITION. One step of the machine (spec/43_execution_loop.md R110), with DISPATCH at its default. -/

namespace Sys2Proof.Machine

/-- In Halted nothing happens (R116; D20, log entry 4). In Running the instruction at PC is fetched, decoded and
executed; a byte that decodes to no instruction halts the machine (R115). -/
def step (s : State) : Host.Outcome State Fault Refusal :=
  match s.run with
  | .halted => .next s
  | .running =>
    match fetchInstr s with
    | .ok i => exec i s
    | .error _ => .next (enterHalt s.opcodeByte s)

/-- The host's placement of one instruction: its bytes stored at PC, PC + 1 and PC + 2, and the loop Running (with
halt_info none, as R20 says of Running), so that the next step fetches it. DESIGN CHOICE, safe: log entry 13. -/
def State.withFetchWord (s : State) (nbits w : Nat) : State :=
  { s with run := .running, haltInfo := none, mem := Memory.loadImage s.mem s.pc.toNat (tableBytes nbits w) }

end Sys2Proof.Machine
end

