-- ==== Sys2Proof/Machine/Bus.lean ====
section
/-! DEFINITION. The transfers a step makes on the memory port, in order (spec/20_memory.md R45, R47). They are an
output beside the step and no part of the state: log entry 10. -/

namespace Sys2Proof.Machine

/-- One transfer: a 16-bit address, already reduced, and a byte read or written (R47). -/
inductive Transfer where
  | read (addr : Addr) (datum : Byte)
  | write (addr : Addr) (datum : Byte)
deriving DecidableEq, Repr

/-- Items (2) and (3) of R45: one read per operand byte, as many as the mode has. -/
def operandTransfers (m : Mode) (s : State) : List Transfer :=
  match m.format with
  | .b2 => [.read (s.pc + 1) s.operand1]
  | .b3 => [.read (s.pc + 1) s.operand1, .read (s.pc + 2) s.operand2]

/-- Item (4) of R45: a read for a Load in a memory mode, a write for a Store, nothing for Immediate. -/
def dataTransfers (e : Entry) (s : State) : List Transfer :=
  match resolve e.mode s with
  | .value _ => []
  | .ea addr =>
    match e.kind with
    | .load => [.read addr (s.memRead addr.toNat)]
    | .store => [.write addr (s.reg e.reg)]

/-- The transfers of the step from `s` under the dispatch table `D` (R45): none in Halted; the opcode read alone when
the byte is unmapped (D17). -/
def busTransfers (D : DispatchTable) (s : State) : List Transfer :=
  match s.run with
  | .halted => []
  | .running =>
    .read s.pc s.opcodeByte ::
      match D s.opcodeByte with
      | none => []
      | some e => operandTransfers e.mode s ++ dataTransfers e s

/-- The memory after one transfer: a write stores its byte, a read changes nothing (R38). -/
def applyTransfer (m : Memory) (t : Transfer) : Memory :=
  match t with
  | .read _ _ => m
  | .write addr v => Memory.write m addr.toNat v

/-- The memory after a list of transfers in order. -/
def applyTransfers (m : Memory) (ts : List Transfer) : Memory := ts.foldl applyTransfer m

end Sys2Proof.Machine
end

