-- ==== Sys2Proof/Machine/Trace.lean ====
section
/-! DEFINITION. What an observer sees (spec/43_execution_loop.md R118, R119; spec/60_exceptions.md R131). The trace
is an output and never state (spec/10_state.md R27), so it is a function of a step: log entry 6. -/

namespace Sys2Proof.Machine

/-- The five Register File members, in the order of R119 (D15). -/
structure TraceRecord where
  a : Byte
  x : Byte
  y : Byte
  sp : Addr
  pc : Addr
deriving DecidableEq, Repr

/-- The record that shows a state (R119). -/
def State.traceRecord (s : State) : TraceRecord := ⟨s.a, s.x, s.y, s.sp, s.pc⟩

/-- The record emitted by a step that took `s` to the outcome `o`: none in Halted (R116); otherwise the state after the
PC advance, or the unchanged registers of the halt (R118). -/
def emitted (s : State) (o : Result) : Option TraceRecord :=
  match s.run, o with
  | .running, .next t => some t.traceRecord
  | _, _ => none

/-- The records of the first `n` steps from a state, oldest first (R118: none before the first step). -/
def traceOfRun : Nat → State → List TraceRecord
  | 0, _ => []
  | n + 1, s =>
    (emitted s (step s)).toList ++
      match step s with
      | .next t => traceOfRun n t
      | _ => []

/-- The halted output: mirrors `run` (R119; D6). -/
def State.haltedOutput (s : State) : Bool := decide (s.run = .halted)

/-- One lower-case hexadecimal digit (R119). -/
def hexDigit (d : Nat) : Char := Char.ofNat (if d < 10 then 48 + d else 87 + d)

/-- The last `k` hexadecimal digits of a number, most significant first. -/
def hexDigits : Nat → Nat → List Char
  | 0, _ => []
  | k + 1, v => hexDigit (v / 16 ^ k % 16) :: hexDigits k v

/-- One register as R119 renders it: name, colon, one space, 0x, the padded value. -/
def renderItem (name : List Char) (digits v : Nat) : List Char :=
  name ++ [':', ' ', '0', 'x'] ++ hexDigits digits v

/-- The five items of a record (R119). Their layout on a line is not in the source and is not modelled. -/
def TraceRecord.render (t : TraceRecord) : List (List Char) :=
  [renderItem ['A'] 2 t.a.toNat, renderItem ['X'] 2 t.x.toNat, renderItem ['Y'] 2 t.y.toNat,
    renderItem ['S', 'P'] 4 t.sp.toNat, renderItem ['P', 'C'] 4 t.pc.toNat]

/-- The halt reason tag, which the host may apply to the final state (60_exceptions.md R131; D8). -/
inductive HaltReason where
  | endOfStream
  | illegalOpcode
deriving DecidableEq, Repr

/-- HaltReason(halt_info) of R131: EndOfStream when the halting fetch lay outside the bytes the image occupied at
reset. -/
def haltReason (p : Params) (info : Byte × Addr) : HaltReason :=
  if (info.2 - p.origin).toNat ≥ p.image.length then .endOfStream else .illegalOpcode

end Sys2Proof.Machine
end

