-- ==== Sys2Proof/Safety.lean ====
section
/-! DEFINITION. What claims mean by a good state, a step that completes, and a run. -/

namespace Sys2Proof.Machine

/-- The invariant of every reachable state: M is in canonical form, and halt_info is none while Running and the pair
(M[PC], PC) while Halted (spec/10_state.md R20). -/
abbrev Inv (s : State) : Prop :=
  Memory.wf s.mem ∧ (s.run = .running → s.haltInfo = none) ∧
    (s.run = .halted → s.haltInfo = some (s.opcodeByte, s.pc))

/-- A step or meaning that completes: it answers a next state, and neither faults nor refuses. -/
abbrev Completes (o : Result) : Prop := ∃ t, o = .next t

/-- The outcome of `n` steps from a state: the run of spec/43_execution_loop.md R122. -/
def runSteps : Nat → State → Result
  | 0, s => .next s
  | n + 1, s =>
    match step s with
    | .next t => runSteps n t
    | .fault r => .fault r
    | .refused r => .refused r

end Sys2Proof.Machine
end

