-- ==== Sys2Proof/Certificates/Slice0/Obligations.lean ====
section
/-! DEFINITION. The statements about the machine, for the provers. "GK" in a docstring marks an opcode byte that the
spec supplies from general knowledge (30_encoding.md R55, D2; log entry 1). -/

open Sys2Proof Sys2Proof.Machine

/-! ### Encoding -/

/-- Decoding an encoded well-formed instruction gives it back with the bytes after it, whatever its operands and
whatever follows; and whatever decodes is the encoding of what it decodes to. Rests on the default table (GK). The
length of Absolute,X is D12 (log entry 12). -/
def Obligations.DecodeEncodeInverse : Prop :=
  (∀ (i : Instr) (rest : List Byte), i.wf = true → decode (encode i ++ rest) = .ok (i, rest)) ∧
    (∀ (bytes rest : List Byte) (i : Instr), decode bytes = .ok (i, rest) → bytes = encode i ++ rest)

/-- R57: in the default table exactly the sixteen listed bytes are mapped, and the decoder rejects every other byte by
name, whatever follows it (GK). -/
def Obligations.UnmappedBytesRejected : Prop :=
  (∀ op : Byte, dispatch op = none ↔ op ∉ ([0x84, 0x85, 0x86, 0xA0, 0xA2, 0xA4, 0xA5, 0xA6, 0xA9, 0xAC, 0xAD, 0xAE,
      0xB4, 0xB5, 0xBC, 0xBD] : List Byte)) ∧
    (∀ (op : Byte) (rest : List Byte), dispatch op = none ↔ decode (op :: rest) = .error (.unmapped op))

/-- A few instructions' bytes, written out from R82 to R103, decode to what they stand for: 0xA9, 0xA5, 0x85 and 0xFF
are the source's, the others are GK. The two operand bytes of Absolute,X are D12 (log entry 12). -/
def Obligations.SampleBytesDecode : Prop :=
  decode [0xA9, 0x42] = .ok (.ldaImm 0x42, []) ∧
  decode [0xA5, 0x10] = .ok (.ldaZp 0x10, []) ∧
  decode [0xBD, 0xFF, 0x0B] = .ok (.ldaAbsX 0xFF 0x0B, []) ∧
  decode [0xAE, 0x00, 0x20] = .ok (.ldxAbs 0x00 0x20, []) ∧
  decode [0xB4, 0x80, 0x99] = .ok (.ldyZpX 0x80, [0x99]) ∧
  decode [0x85, 0x10] = .ok (.staZp 0x10, []) ∧
  decode [0xFF, 0x10] = .error (.unmapped 0xFF) ∧
  decode [0xAD, 0x34] = .error .truncated

/-- R56: the default table meets every constraint the source settles about DISPATCH. Items 1 to 4 and 6 to 8 are
written out; item 5's ranges are the types of an entry's members; item 9 (finite, fixed) is that the table is a
function on the 256 bytes and no part of the state. -/
def Obligations.DefaultTableMeetsSourceConstraints : Prop :=
  MeetsR56 dispatch ∧
    (∀ (op : Byte) (e : Entry), dispatch op = some e → e.kind = .store → e.mode = .zeroPage)

/-- R52 and R58: what decodes is two bytes long in Immediate, Zero Page and Zero Page,X, three bytes long in Absolute
and Absolute,X (the last is decision D12, log entry 12). -/
def Obligations.LengthFollowsMode : Prop :=
  ∀ (bytes rest : List Byte) (i : Instr), decode bytes = .ok (i, rest) →
    bytes.length = rest.length +
      (match i.entry.mode with
        | .immediate => 2
        | .zeroPage => 2
        | .zeroPageX => 2
        | .absolute => 3
        | .absoluteX => 3)

/-! ### Memory -/

/-- R33: read and write at any address are read and write at the address mod 65536. -/
def Obligations.MemoryWraparound : Prop :=
  (∀ (m : Memory) (a : Nat), Memory.read m a = Memory.read m (a % 65536)) ∧
    (∀ (m : Memory) (a : Nat) (v : Byte), Memory.write m a v = Memory.write m (a % 65536) v)

/-- R32: a write sets the byte at the address mod 65536, and no other location changes. -/
def Obligations.WriteSetsOneByte : Prop :=
  ∀ (m : Memory) (addr : Nat) (v : Byte) (b : Nat),
    Memory.read (Memory.write m addr v) b = if b % 65536 = addr % 65536 then v else Memory.read m b

/-- The model's own form of M (log entry 9): two canonical memories that read alike everywhere are the same data. -/
def Obligations.CanonicalMemoryExtensional : Prop :=
  ∀ m n : Memory, Memory.wf m → Memory.wf n → (∀ a, a < 65536 → Memory.read m a = Memory.read n a) → m = n

/-- R34: after LoadImage the byte at (origin + i) mod 65536 is bytes[i], unless a later byte falls on the same index
(then that one stands: D11); every index no byte falls on is unchanged. An image that passes the top of memory wraps
(D10). Log entry 11. -/
def Obligations.LoadImagePlacesBytes : Prop :=
  ∀ (m : Memory) (origin : Nat) (bytes : List Byte),
    (∀ i, i < bytes.length →
      (∀ j, i < j → j < bytes.length → (origin + j) % 65536 ≠ (origin + i) % 65536) →
      Memory.read (Memory.loadImage m origin bytes) (origin + i) = bytes.getD i 0) ∧
    (∀ a, (∀ i, i < bytes.length → (origin + i) % 65536 ≠ a % 65536) →
      Memory.read (Memory.loadImage m origin bytes) a = Memory.read m a)

/-! ### The resolver -/

/-- R71, R72, R74: Immediate is the operand byte itself (a Load's mode only), Zero Page the operand byte as an address,
Absolute b2 * 256 + b1; none of the three reads X. -/
def Obligations.ResolveUnindexedModes : Prop :=
  ∀ s : State,
    resolve .immediate s = .value (s.memRead ((s.pc.toNat + 1) % 65536)) ∧
    (∀ r : Reg, Entry.wf ⟨.store, r, .immediate⟩ = false) ∧
    resolve .zeroPage s = .ea (BitVec.ofNat 16 (s.memRead ((s.pc.toNat + 1) % 65536)).toNat) ∧
    resolve .absolute s = .ea (BitVec.ofNat 16
      ((s.memRead ((s.pc.toNat + 2) % 65536)).toNat * 256 + (s.memRead ((s.pc.toNat + 1) % 65536)).toNat)) ∧
    (∀ v : Byte, resolve .immediate { s with x := v } = resolve .immediate s ∧
      resolve .zeroPage { s with x := v } = resolve .zeroPage s ∧
      resolve .absolute { s with x := v } = resolve .absolute s)

/-- R73: Zero Page,X is (b1 + X) mod 256 widened to an address, so it never leaves the zero page; where the 8-bit sum
carries it is not the 16-bit sum (R76). -/
def Obligations.ResolveZeroPageX : Prop :=
  ∀ s : State,
    resolve .zeroPageX s =
      .ea (BitVec.ofNat 16 (((s.memRead ((s.pc.toNat + 1) % 65536)).toNat + s.x.toNat) % 256)) ∧
    (∀ ea : Addr, resolve .zeroPageX s = .ea ea → ea.toNat < 256 ∧
      (256 ≤ (s.memRead ((s.pc.toNat + 1) % 65536)).toNat + s.x.toNat →
        ea.toNat ≠ (s.memRead ((s.pc.toNat + 1) % 65536)).toNat + s.x.toNat))

/-- R75: Absolute,X is (b2 * 256 + b1 + X) mod 65536, X unsigned. The 16-bit sum is decision D12, log entry 12. -/
def Obligations.ResolveAbsoluteX : Prop :=
  ∀ s : State,
    resolve .absoluteX s = .ea (BitVec.ofNat 16
      (((s.memRead ((s.pc.toNat + 2) % 65536)).toNat * 256 + (s.memRead ((s.pc.toNat + 1) % 65536)).toNat +
        s.x.toNat) % 65536))

/-- R70: resolving depends on the mode, PC and the operand bytes the mode has, and on X in the two indexed modes only:
states that agree on these resolve alike, whatever else they hold. That Absolute,X has two operand bytes is D12 (log
entry 12). -/
def Obligations.ResolverReadsOnlyItsInputs : Prop :=
  ∀ (m : Mode) (s t : State), s.pc = t.pc →
    s.memRead ((s.pc.toNat + 1) % 65536) = t.memRead ((t.pc.toNat + 1) % 65536) →
    (m = .absolute ∨ m = .absoluteX →
      s.memRead ((s.pc.toNat + 2) % 65536) = t.memRead ((t.pc.toNat + 2) % 65536)) →
    (m = .zeroPageX ∨ m = .absoluteX → s.x = t.x) →
    resolve m s = resolve m t

/-! ### The Load and Store operations, for any dispatch table -/

/-- R81: for an entry (Load, r, mode) of any table, the step writes the resolved value, or the byte at the resolved
address, to r, advances PC by the mode's length, changes nothing else, and emits one record of the state after. -/
def Obligations.LoadOperation : Prop :=
  ∀ (D : DispatchTable) (s : State) (r : Reg) (m : Mode), s.run = .running →
    D (s.memRead s.pc.toNat) = some ⟨.load, r, m⟩ →
    ∃ t, stepWith D s = .next t ∧
      (∀ q : Reg, t.reg q = if q = r then
        (match resolve m s with
          | .value v => v
          | .ea addr => s.memRead addr.toNat) else s.reg q) ∧
      t.pc.toNat = (s.pc.toNat + m.len) % 65536 ∧
      t.sp = s.sp ∧ t.run = s.run ∧ t.haltInfo = s.haltInfo ∧ t.mem = s.mem ∧
      emitted s (stepWith D s) = some ⟨t.a, t.x, t.y, t.sp, t.pc⟩

/-- R100: for an entry (Store, r, Zero Page) of any table, the step writes r's byte at the operand byte as an address,
advances PC by 2, changes nothing else, and emits one record of the state after. No admissible table has a Store in
Immediate mode. -/
def Obligations.StoreOperation : Prop :=
  (∀ (D : DispatchTable) (s : State) (r : Reg), s.run = .running →
    D (s.memRead s.pc.toNat) = some ⟨.store, r, .zeroPage⟩ →
    ∃ t, stepWith D s = .next t ∧
      (∀ a : Nat, t.memRead a =
        if a % 65536 = (s.memRead ((s.pc.toNat + 1) % 65536)).toNat then s.reg r else s.memRead a) ∧
      (∀ q : Reg, t.reg q = s.reg q) ∧
      t.pc.toNat = (s.pc.toNat + 2) % 65536 ∧
      t.sp = s.sp ∧ t.run = s.run ∧ t.haltInfo = s.haltInfo ∧
      emitted s (stepWith D s) = some ⟨t.a, t.x, t.y, t.sp, t.pc⟩) ∧
  (∀ (D : DispatchTable) (op : Byte) (r : Reg), MeetsR56 D → D op ≠ some ⟨.store, r, .immediate⟩)

/-- R77: with a table that has (Load, X, Zero Page,X) or (Load, X, Absolute,X), the address uses the old X and the byte
loaded becomes the new X (decision D24; no such entry is in the default table). The Absolute,X address is R75's 16-bit
sum mod 65536, which is decision D12 (log entry 12). -/
def Obligations.IndexedLoadXUsesOldX : Prop :=
  ∀ (D : DispatchTable) (s : State), s.run = .running →
    (D (s.memRead s.pc.toNat) = some ⟨.load, .x, .zeroPageX⟩ →
      ∃ t, stepWith D s = .next t ∧
        t.x = s.memRead (((s.memRead ((s.pc.toNat + 1) % 65536)).toNat + s.x.toNat) % 256)) ∧
    (D (s.memRead s.pc.toNat) = some ⟨.load, .x, .absoluteX⟩ →
      ∃ t, stepWith D s = .next t ∧
        t.x = s.memRead (((s.memRead ((s.pc.toNat + 2) % 65536)).toNat * 256 +
          (s.memRead ((s.pc.toNat + 1) % 65536)).toNat + s.x.toNat) % 65536))

/-! ### The sixteen instructions: what each gives, from any state -/

/-- R82, LDA #d8: its encoding, its meaning from every state, and the step at its opcode byte. -/
def Obligations.LdaImmediate : Prop :=
  (∀ (d8 : Byte) (rest : List Byte), encode (.ldaImm d8) = [0xA9, d8] ∧
    decode (0xA9 :: d8 :: rest) = .ok (.ldaImm d8, rest)) ∧
  (∀ (d8 : Byte) (s : State), exec (.ldaImm d8) s =
    .next { s with a := d8, pc := BitVec.ofNat 16 ((s.pc.toNat + 2) % 65536) }) ∧
  (∀ s : State, s.run = .running → s.memRead s.pc.toNat = 0xA9 → step s =
    .next { s with
      a := s.memRead ((s.pc.toNat + 1) % 65536)
      pc := BitVec.ofNat 16 ((s.pc.toNat + 2) % 65536) })

/-- R83, LDA d8: its encoding, its meaning from every state, and the step at its opcode byte. -/
def Obligations.LdaZeroPage : Prop :=
  (∀ (d8 : Byte) (rest : List Byte), encode (.ldaZp d8) = [0xA5, d8] ∧
    decode (0xA5 :: d8 :: rest) = .ok (.ldaZp d8, rest)) ∧
  (∀ (d8 : Byte) (s : State), exec (.ldaZp d8) s =
    .next { s with a := s.memRead d8.toNat, pc := BitVec.ofNat 16 ((s.pc.toNat + 2) % 65536) }) ∧
  (∀ s : State, s.run = .running → s.memRead s.pc.toNat = 0xA5 → step s =
    .next { s with
      a := s.memRead (s.memRead ((s.pc.toNat + 1) % 65536)).toNat
      pc := BitVec.ofNat 16 ((s.pc.toNat + 2) % 65536) })

/-- R101, STA d8: its encoding, its meaning from every state, and the step at its opcode byte. -/
def Obligations.StaZeroPage : Prop :=
  (∀ (d8 : Byte) (rest : List Byte), encode (.staZp d8) = [0x85, d8] ∧
    decode (0x85 :: d8 :: rest) = .ok (.staZp d8, rest)) ∧
  (∀ (d8 : Byte) (s : State), exec (.staZp d8) s =
    .next { s with
      mem := Memory.write s.mem d8.toNat s.a
      pc := BitVec.ofNat 16 ((s.pc.toNat + 2) % 65536) }) ∧
  (∀ s : State, s.run = .running → s.memRead s.pc.toNat = 0x85 → step s =
    .next { s with
      mem := Memory.write s.mem (s.memRead ((s.pc.toNat + 1) % 65536)).toNat s.a
      pc := BitVec.ofNat 16 ((s.pc.toNat + 2) % 65536) })

/-- R84, R85, R86: LDA d8,X, LDA a16 and LDA a16,X from every state, and the bytes that decode to them (0xB5, 0xAD,
0xBD are GK). -/
def Obligations.LdaIndexedAndAbsolute : Prop :=
  (∀ (d8 : Byte) (rest : List Byte), decode (0xB5 :: d8 :: rest) = .ok (.ldaZpX d8, rest)) ∧
  (∀ (lo hi : Byte) (rest : List Byte), decode (0xAD :: lo :: hi :: rest) = .ok (.ldaAbs lo hi, rest) ∧
    decode (0xBD :: lo :: hi :: rest) = .ok (.ldaAbsX lo hi, rest)) ∧
  (∀ (d8 : Byte) (s : State), exec (.ldaZpX d8) s =
    .next { s with
      a := s.memRead ((d8.toNat + s.x.toNat) % 256)
      pc := BitVec.ofNat 16 ((s.pc.toNat + 2) % 65536) }) ∧
  (∀ (lo hi : Byte) (s : State), exec (.ldaAbs lo hi) s =
    .next { s with
      a := s.memRead (hi.toNat * 256 + lo.toNat)
      pc := BitVec.ofNat 16 ((s.pc.toNat + 3) % 65536) }) ∧
  (∀ (lo hi : Byte) (s : State), exec (.ldaAbsX lo hi) s =
    .next { s with
      a := s.memRead ((hi.toNat * 256 + lo.toNat + s.x.toNat) % 65536)
      pc := BitVec.ofNat 16 ((s.pc.toNat + 3) % 65536) })

/-- R87, R88, R89: LDX #d8, LDX d8 and LDX a16 from every state, and the bytes that decode to them (0xA2, 0xA6, 0xAE
are GK). The old X is not read. -/
def Obligations.LdxAllModes : Prop :=
  (∀ (d8 : Byte) (rest : List Byte), decode (0xA2 :: d8 :: rest) = .ok (.ldxImm d8, rest) ∧
    decode (0xA6 :: d8 :: rest) = .ok (.ldxZp d8, rest)) ∧
  (∀ (lo hi : Byte) (rest : List Byte), decode (0xAE :: lo :: hi :: rest) = .ok (.ldxAbs lo hi, rest)) ∧
  (∀ (d8 : Byte) (s : State), exec (.ldxImm d8) s =
    .next { s with x := d8, pc := BitVec.ofNat 16 ((s.pc.toNat + 2) % 65536) }) ∧
  (∀ (d8 : Byte) (s : State), exec (.ldxZp d8) s =
    .next { s with x := s.memRead d8.toNat, pc := BitVec.ofNat 16 ((s.pc.toNat + 2) % 65536) }) ∧
  (∀ (lo hi : Byte) (s : State), exec (.ldxAbs lo hi) s =
    .next { s with
      x := s.memRead (hi.toNat * 256 + lo.toNat)
      pc := BitVec.ofNat 16 ((s.pc.toNat + 3) % 65536) })

/-- R90 to R94: LDY in its five modes from every state, and the bytes that decode to them (0xA0, 0xA4, 0xB4, 0xAC, 0xBC
are GK). The index is X, never Y. -/
def Obligations.LdyAllModes : Prop :=
  (∀ (d8 : Byte) (rest : List Byte), decode (0xA0 :: d8 :: rest) = .ok (.ldyImm d8, rest) ∧
    decode (0xA4 :: d8 :: rest) = .ok (.ldyZp d8, rest) ∧
    decode (0xB4 :: d8 :: rest) = .ok (.ldyZpX d8, rest)) ∧
  (∀ (lo hi : Byte) (rest : List Byte), decode (0xAC :: lo :: hi :: rest) = .ok (.ldyAbs lo hi, rest) ∧
    decode (0xBC :: lo :: hi :: rest) = .ok (.ldyAbsX lo hi, rest)) ∧
  (∀ (d8 : Byte) (s : State), exec (.ldyImm d8) s =
    .next { s with y := d8, pc := BitVec.ofNat 16 ((s.pc.toNat + 2) % 65536) }) ∧
  (∀ (d8 : Byte) (s : State), exec (.ldyZp d8) s =
    .next { s with y := s.memRead d8.toNat, pc := BitVec.ofNat 16 ((s.pc.toNat + 2) % 65536) }) ∧
  (∀ (d8 : Byte) (s : State), exec (.ldyZpX d8) s =
    .next { s with
      y := s.memRead ((d8.toNat + s.x.toNat) % 256)
      pc := BitVec.ofNat 16 ((s.pc.toNat + 2) % 65536) }) ∧
  (∀ (lo hi : Byte) (s : State), exec (.ldyAbs lo hi) s =
    .next { s with
      y := s.memRead (hi.toNat * 256 + lo.toNat)
      pc := BitVec.ofNat 16 ((s.pc.toNat + 3) % 65536) }) ∧
  (∀ (lo hi : Byte) (s : State), exec (.ldyAbsX lo hi) s =
    .next { s with
      y := s.memRead ((hi.toNat * 256 + lo.toNat + s.x.toNat) % 65536)
      pc := BitVec.ofNat 16 ((s.pc.toNat + 3) % 65536) })

/-- R102, R103: STX d8 and STY d8 from every state, and the bytes that decode to them (0x86, 0x84 are GK). X is the
datum, not an index. -/
def Obligations.StxAndSty : Prop :=
  (∀ (d8 : Byte) (rest : List Byte), decode (0x86 :: d8 :: rest) = .ok (.stxZp d8, rest) ∧
    decode (0x84 :: d8 :: rest) = .ok (.styZp d8, rest)) ∧
  (∀ (d8 : Byte) (s : State), exec (.stxZp d8) s =
    .next { s with
      mem := Memory.write s.mem d8.toNat s.x
      pc := BitVec.ofNat 16 ((s.pc.toNat + 2) % 65536) }) ∧
  (∀ (d8 : Byte) (s : State), exec (.styZp d8) s =
    .next { s with
      mem := Memory.write s.mem d8.toNat s.y
      pc := BitVec.ofNat 16 ((s.pc.toNat + 2) % 65536) })

/-! ### Frames -/

/-- The frame of the thirteen Loads (LDA, LDX, LDY in every mode): every register but the target, SP, the run state,
halt_info and every byte of memory are unchanged (R80, R81). -/
def Obligations.LoadFrame : Prop :=
  ∀ (i : Instr) (s t : State), i.entry.kind = .load → exec i s = .next t →
    (∀ r : Reg, r ≠ i.entry.reg → t.reg r = s.reg r) ∧
    t.sp = s.sp ∧ t.run = s.run ∧ t.haltInfo = s.haltInfo ∧
    (∀ a : Nat, t.memRead a = s.memRead a)

/-- The frame of the three Stores (STA d8, STX d8, STY d8): every register, SP, the run state and halt_info are
unchanged, and every byte of memory outside the one at the operand's zero-page address (R80, R100). -/
def Obligations.StoreFrame : Prop :=
  ∀ (i : Instr) (d8 : Byte) (s t : State), i.entry.kind = .store → operandBytes i = [d8] → exec i s = .next t →
    (∀ r : Reg, t.reg r = s.reg r) ∧
    t.sp = s.sp ∧ t.run = s.run ∧ t.haltInfo = s.haltInfo ∧
    (∀ a : Nat, a % 65536 ≠ (eaZeroPage d8).toNat → t.memRead a = s.memRead a)

/-- The access table R23 for A, X and Y: an instruction whose entry does not name a register neither reads nor writes
it, but for X in the two indexed modes; and a Load does not read its target (again but for X as the index). -/
def Obligations.RegisterAccessTable : Prop :=
  ∀ (i : Instr) (s t : State) (v : Byte), exec i s = .next t →
    (i.entry.reg ≠ .a → exec i { s with a := v } = .next { t with a := v }) ∧
    (i.entry.reg ≠ .y → exec i { s with y := v } = .next { t with y := v }) ∧
    (i.entry.reg ≠ .x → i.entry.mode ≠ .zeroPageX → i.entry.mode ≠ .absoluteX →
      exec i { s with x := v } = .next { t with x := v }) ∧
    (i.entry.kind = .load → i.entry.reg = .a → exec i { s with a := v } = .next t) ∧
    (i.entry.kind = .load → i.entry.reg = .x → exec i { s with x := v } = .next t) ∧
    (i.entry.kind = .load → i.entry.reg = .y → exec i { s with y := v } = .next t)

/-! ### The execution loop -/

/-- While Running, when the bytes at PC, PC + 1 and PC + 2 (each mod 65536) decode to an instruction, the step is that
instruction's meaning and nothing else. -/
def Obligations.StepRunsDecodedInstruction : Prop :=
  ∀ (s : State) (i : Instr) (rest : List Byte), s.run = .running →
    decode [s.memRead s.pc.toNat, s.memRead ((s.pc.toNat + 1) % 65536), s.memRead ((s.pc.toNat + 2) % 65536)] =
      .ok (i, rest) →
    step s = exec i s

/-- The machine, which decodes to one of sixteen instructions and runs its meaning, is R110's own Step at the default
table of R55 (GK), from every state. In Halted both are the identity (D20, log entry 4). -/
def Obligations.StepIsTableStep : Prop :=
  ∀ s : State, step s = stepWith dispatch s

/-- R115: for any table, a Running machine whose opcode byte is unmapped goes to Halted with halt_info the byte and PC,
changes nothing else (PC is not advanced), and emits one record of the unchanged registers; so does the machine itself
at the default table. That the halt records halt_info is the spec's own addition (R20, D8, log entry 5). -/
def Obligations.UnmappedOpcodeHalts : Prop :=
  (∀ (D : DispatchTable) (s : State), s.run = .running → D (s.memRead s.pc.toNat) = none →
    stepWith D s = .next { s with run := .halted, haltInfo := some (s.memRead s.pc.toNat, s.pc) } ∧
    emitted s (stepWith D s) = some ⟨s.a, s.x, s.y, s.sp, s.pc⟩) ∧
  (∀ s : State, s.run = .running → dispatch (s.memRead s.pc.toNat) = none →
    step s = .next { s with run := .halted, haltInfo := some (s.memRead s.pc.toNat, s.pc) } ∧
    emitted s (step s) = some ⟨s.a, s.x, s.y, s.sp, s.pc⟩)

/-- R116: in Halted a step changes nothing and emits nothing, under any table, and so do any number of steps. The reset
input gives Running again (R152). That the step in Halted is the identity is decision D20 (log entry 4), the reset input
decision D9 (log entry 7). -/
def Obligations.HaltedIsTerminal : Prop :=
  ∀ s : State, s.run = .halted →
    (∀ D : DispatchTable, stepWith D s = .next s ∧ emitted s (stepWith D s) = none) ∧
    (∀ n : Nat, runSteps n s = .next s ∧ traceOfRun n s = []) ∧
    (∀ p : Params, (assertReset p s).run = .running)

/-- R19: run starts as Running; a step from Running ends in Halted exactly when the fetched opcode byte is unmapped;
from Halted it stays Halted; and no instruction reads or writes it. Nor does one read or write halt_info (R20), which is
the spec's own addition (D8, log entry 5). -/
def Obligations.RunStateTransitions : Prop :=
  (∀ p : Params, (State.resetWith p).run = .running) ∧
  (∀ (D : DispatchTable) (s t : State), stepWith D s = .next t →
    (t.run = .halted ↔ s.run = .halted ∨ D (s.memRead s.pc.toNat) = none)) ∧
  (∀ (i : Instr) (s t : State) (r : RunState) (h : Option (Byte × Addr)), exec i s = .next t →
    t.run = s.run ∧ t.haltInfo = s.haltInfo ∧
      exec i { s with run := r, haltInfo := h } = .next { t with run := r, haltInfo := h })

/-- R114: an executed instruction leaves PC at (PC + LEN(mode)) mod 65536 with LEN 2 or 3 by the mode alone, under any
table. The lengths are R52's; that Absolute,X has 3 is decision D12 (log entry 12). -/
def Obligations.PcAdvancesByModeLength : Prop :=
  ∀ (D : DispatchTable) (s t : State) (e : Entry), s.run = .running → D (s.memRead s.pc.toNat) = some e →
    stepWith D s = .next t →
    t.pc.toNat = (s.pc.toNat +
      (match e.mode with
        | .immediate => 2
        | .zeroPage => 2
        | .zeroPageX => 2
        | .absolute => 3
        | .absoluteX => 3)) % 65536

/-- R110, R132: under every table that meets R56 a step from any state answers a next state; so does the machine's own
step. No fault, no refusal. That a step in Halted answers a next state is D20 (log entry 4). -/
def Obligations.NoStepStops : Prop :=
  (∀ (D : DispatchTable) (s : State), MeetsR56 D → Completes (stepWith D s)) ∧
    (∀ s : State, Completes (step s))

/-- The invariant is kept by every step from every state that has it: M stays canonical (log entry 9), and halt_info is
none while Running and (M[PC], PC) while Halted (R20, D8). halt_info is log entry 5, the identity step of Halted D20
(log entry 4). -/
def Obligations.StepKeepsInvariant : Prop :=
  ∀ s t : State, Inv s → step s = .next t → Inv t

/-- The invariant holds after reset, whatever ORIGIN, SP_RESET and IMAGE. halt_info is D8 (log entry 5), the canonical
form log entry 9, and an image that wraps or overwrites is D10 and D11 (log entry 11). -/
def Obligations.ResetHasInvariant : Prop :=
  (∀ p : Params, Inv (State.resetWith p)) ∧ Inv State.reset

/-- R14: no step reads or writes SP, so along any run from reset it keeps SP_RESET. The inert SP is D16 (log entry 14).
A run has no reset inside it (log entry 7). -/
def Obligations.SpIsInert : Prop :=
  (∀ (s t : State) (v : Addr), step s = .next t →
    t.sp = s.sp ∧ step { s with sp := v } = .next { t with sp := v }) ∧
  (∀ (p : Params) (n : Nat) (t : State), runSteps n (State.resetWith p) = .next t → t.sp = p.spReset)

/-- R30, R157(b): no run from any state, however long, changes a byte outside the zero page. A run has no reset inside
it (log entry 7). -/
def Obligations.OnlyZeroPageIsWritten : Prop :=
  ∀ (n : Nat) (s t : State) (a : Nat), runSteps n s = .next t → 256 ≤ a % 65536 → t.memRead a = s.memRead a

/-- R44 (a consequence the spec derives, D18): the byte a Store writes is what the very next fetch sees, as the opcode
byte or as an operand byte. -/
def Obligations.StoreSeenByNextFetch : Prop :=
  ∀ (i : Instr) (d8 : Byte) (s t : State), i.entry.kind = .store → operandBytes i = [d8] → exec i s = .next t →
    t.memRead d8.toNat = s.reg i.entry.reg ∧
    (t.pc = eaZeroPage d8 → t.opcodeByte = s.reg i.entry.reg) ∧
    (t.pc + 1 = eaZeroPage d8 → t.operand1 = s.reg i.entry.reg) ∧
    (t.pc + 2 = eaZeroPage d8 → t.operand2 = s.reg i.entry.reg)

/-- R104: storing A to z and then loading z into Y gives Y = A, under any table with the two entries, when the Load's
own two bytes are not at z (the Store's may be); and when the Load's operand byte is at z, the Load reads M[A]. That
the Load's fetch sees the Store is D18 (log entry 14). -/
def Obligations.StoreThenLoadRoundTrip : Prop :=
  ∀ (D : DispatchTable) (s : State) (z : Byte), s.run = .running →
    D (s.memRead s.pc.toNat) = some ⟨.store, .a, .zeroPage⟩ →
    s.memRead ((s.pc.toNat + 1) % 65536) = z →
    D (s.memRead ((s.pc.toNat + 2) % 65536)) = some ⟨.load, .y, .zeroPage⟩ →
    (s.memRead ((s.pc.toNat + 3) % 65536) = z → z.toNat ≠ (s.pc.toNat + 2) % 65536 →
      z.toNat ≠ (s.pc.toNat + 3) % 65536 →
      ∃ t u, stepWith D s = .next t ∧ stepWith D t = .next u ∧
        u.y = s.a ∧ u.a = s.a ∧ u.memRead z.toNat = s.a ∧ u.pc.toNat = (s.pc.toNat + 4) % 65536) ∧
    (z.toNat = s.pc.toNat + 3 →
      ∃ t u, stepWith D s = .next t ∧ stepWith D t = .next u ∧ u.y = t.memRead s.a.toNat)

/-- R122, R57: from any Running state with PC outside the zero page and three 0x00 bytes at e, e + 1, e + 2 above it,
below the top of memory, the machine halts within e - PC + 1 steps: execution is a straight line that no Store can
alter there. That 0x00 is unmapped is the default table's (GK). A run has no reset inside it (log entry 7). -/
def Obligations.ZeroBytesEndARun : Prop :=
  ∀ (s : State) (e : Nat), s.run = .running → 256 ≤ s.pc.toNat → s.pc.toNat ≤ e → e + 2 < 65536 →
    s.memRead e = 0 → s.memRead (e + 1) = 0 → s.memRead (e + 2) = 0 →
    ∃ (n : Nat) (t : State), n ≤ e - s.pc.toNat + 1 ∧ runSteps n s = .next t ∧ t.run = .halted

/-- R122: a run need not end: from a state whose memory holds 0xA9 everywhere the machine is Running after any number
of steps. None of the steps is a reset (log entry 7). -/
def Obligations.RunNeedNotEnd : Prop :=
  ∀ s : State, s.run = .running → (∀ a : Nat, s.memRead a = 0xA9) →
    ∀ n : Nat, ∃ t, runSteps n s = .next t ∧ t.run = .running

/-! ### Reset -/

/-- R25, R150, R152: the state after reset for any parameters. halt_info is the spec's own addition (D8), the reset
input is decision D9, and the defaults of State.reset are log entries 2 and 3. The image is taken to fit in memory
here; LoadImagePlacesBytes has the rest. An image that passes the top of memory wraps into low memory (R34), which is
decision D10 (log entry 11). halt_info is log entry 5, the reset input log entry 7. -/
def Obligations.ResetState : Prop :=
  (∀ p : Params,
    (State.resetWith p).a = 0 ∧ (State.resetWith p).x = 0 ∧ (State.resetWith p).y = 0 ∧
    (State.resetWith p).sp = p.spReset ∧ (State.resetWith p).pc = p.origin ∧
    (State.resetWith p).run = .running ∧ (State.resetWith p).haltInfo = none ∧
    (p.image.length ≤ 65536 → ∀ i, i < p.image.length →
      (State.resetWith p).memRead (p.origin.toNat + i) = p.image.getD i 0) ∧
    (∀ a : Nat, (∀ i, i < p.image.length → (p.origin.toNat + i) % 65536 ≠ a % 65536) →
      (State.resetWith p).memRead a = 0) ∧
    (∀ s : State, assertReset p s = State.resetWith p)) ∧
  State.reset = State.resetWith ⟨0x0C00#16, 0x0100#16, []⟩

/-- R151, for an image that fits in memory: the first fetch reads the image's first byte, or 0x00 of an empty image;
and where that byte is unmapped the first step halts with every register at its reset value. halt_info is D8 (log entry
5), and an image that passes the top of memory wraps (R34, D10, log entry 11). -/
def Obligations.FirstFetchReadsTheImage : Prop :=
  ∀ p : Params, p.image.length ≤ 65536 →
    (State.resetWith p).memRead p.origin.toNat = p.image.headD 0 ∧
    (∀ D : DispatchTable, D (p.image.headD 0) = none →
      ∃ t, stepWith D (State.resetWith p) = .next t ∧ t.run = .halted ∧
        t.haltInfo = some (p.image.headD 0, p.origin) ∧
        t.a = 0 ∧ t.x = 0 ∧ t.y = 0 ∧ t.sp = p.spReset ∧ t.pc = p.origin)

/-! ### What an observer sees -/

/-- R118: no record before the first step; a run that executes n instructions and then halts emits n + 1 records and
none after, each of the first n the state after that step, the last the state at the halt; the image FF gives one
record, the reset values. -/
def Obligations.TraceOfARun : Prop :=
  (∀ s : State, traceOfRun 0 s = []) ∧
  (∀ (n : Nat) (s u : State), runSteps n s = .next u → u.run = .running →
    (∀ (k : Nat) (w : State), k < n → runSteps k s = .next w → dispatch (w.memRead w.pc.toNat) ≠ none) →
    dispatch (u.memRead u.pc.toNat) = none →
    ∀ m : Nat, (traceOfRun (n + 1 + m) s).length = n + 1 ∧
      (∀ (k : Nat) (w : State), k < n → runSteps (k + 1) s = .next w →
        (traceOfRun (n + 1 + m) s)[k]? = some w.traceRecord) ∧
      (traceOfRun (n + 1 + m) s)[n]? = some u.traceRecord) ∧
  (∀ (p : Params) (m : Nat), p.image = [0xFF] →
    traceOfRun (m + 1) (State.resetWith p) = [⟨0, 0, 0, p.spReset, p.origin⟩])

/-- R131 (the spec's own tag, D8): a halt is EndOfStream exactly when its address is none of the addresses the image
occupied at reset. The tag is log entry 5. The addresses an image occupies wrap at the top of memory, whatever its
length (R34, D10, D11, log entry 11). -/
def Obligations.HaltReasonTellsImageExtent : Prop :=
  ∀ (p : Params) (op : Byte) (addr : Addr),
    haltReason p (op, addr) = .endOfStream ↔
      ∀ i, i < p.image.length → (p.origin.toNat + i) % 65536 ≠ addr.toNat

/-- R45 (this spec's reading, D7 and D17): the transfers of a step are the opcode read, the mode's operand reads and at
most one data transfer, in that order; their reads give the memory's bytes and their writes make the step's memory.
That Absolute,X makes two operand reads is R52's length and decision D12 (log entry 12). The transfers are log entry
10. -/
def Obligations.BusTransfersMatchStep : Prop :=
  ∀ (D : DispatchTable) (s t : State), stepWith D s = .next t →
    t.mem = applyTransfers s.mem (busTransfers D s) ∧
    (∀ (addr : Addr) (v : Byte), Transfer.read addr v ∈ busTransfers D s → v = s.memRead addr.toNat) ∧
    (s.run = .halted → busTransfers D s = []) ∧
    (s.run = .running → D (s.memRead s.pc.toNat) = none →
      busTransfers D s = [.read s.pc (s.memRead s.pc.toNat)]) ∧
    (∀ e : Entry, s.run = .running → D (s.memRead s.pc.toNat) = some e →
      ∃ data : List Transfer, data.length ≤ 1 ∧
        busTransfers D s =
          (.read s.pc (s.memRead s.pc.toNat) ::
            (.read (s.pc + 1) (s.memRead ((s.pc.toNat + 1) % 65536)) ::
              (if e.mode = .absolute ∨ e.mode = .absoluteX then
                [.read (s.pc + 2) (s.memRead ((s.pc.toNat + 2) % 65536))] else []))) ++ data ∧
        (e.mode = .immediate → data = []) ∧
        (∀ ea : Addr, resolve e.mode s = .ea ea → data =
          (if e.kind = .load then [.read ea (s.memRead ea.toNat)] else [.write ea (s.reg e.reg)])))

/-- R45: a step learns nothing of memory but what its transfers read: two states with the same registers, whose
memories agree on every byte the first one's step reads, make the same transfers and end with the same registers. The
transfers are D7's and D17's (log entry 10), Absolute,X's two operand reads D12's (log entry 12). -/
def Obligations.StepLearnsOnlyWhatItReads : Prop :=
  ∀ (D : DispatchTable) (s : State) (m : Memory) (t : State),
    (∀ (addr : Addr) (v : Byte), Transfer.read addr v ∈ busTransfers D s → Memory.read m addr.toNat = v) →
    stepWith D s = .next t →
    busTransfers D { s with mem := m } = busTransfers D s ∧
    ∃ n : Memory, stepWith D { s with mem := m } = .next { t with mem := n }

/-- The host's placement of a table word: where the decoder reads an instruction from it, the very next step runs that
instruction, from every state (log entry 13). A word placed at the top of memory wraps (R34, D10, log entry 11). -/
def Obligations.PlacedWordRunsNext : Prop :=
  ∀ (s : State) (nbits w : Nat) (i : Instr), decodeTableWord nbits w = some i →
    step (s.withFetchWord nbits w) = exec i (s.withFetchWord nbits w)
end

