-- ==== Sys2Proof/Laws/Decode.lean ====
section
/-! SUPPORT. What the default table, the decoder and the encoder can answer. -/

namespace Sys2Proof

/-- The encoder's opcode byte selects the instruction's own entry. -/
theorem dispatch_opcode (i : Instr) : dispatch (opcode i) = some i.entry := by
  cases i <;> rfl

/-- Every entry of the default table has a row: the decoder's `noRow` rejection does not arise. -/
theorem instrOf_of_dispatch (op : Byte) (e : Entry) (b1 b2 : Byte) (h : dispatch op = some e) :
    ∃ i, instrOf e b1 b2 = some i := by
  have key : ∀ op : Byte, ((dispatch op).all fun e => (instrOf e 0 0).isSome) = true := by decide +kernel
  have h0 := key op
  rw [h] at h0
  obtain ⟨k, r, m⟩ := e
  cases k <;> cases r <;> cases m <;> first | exact ⟨_, rfl⟩ | exact absurd h0 (by decide)

/-- The instruction an entry and operand bytes name has that entry. -/
theorem entry_of_instrOf (e : Entry) (b1 b2 : Byte) (i : Instr) (h : instrOf e b1 b2 = some i) : i.entry = e := by
  obtain ⟨k, r, m⟩ := e
  cases k <;> cases r <;> cases m <;> simp_all [instrOf] <;> subst h <;> rfl

/-- No two opcode bytes share an entry of the default table. -/
theorem opcode_of_dispatch (op : Byte) (i : Instr) (h : dispatch op = some i.entry) : op = opcode i := by
  have key : ∀ op : Byte,
      ((dispatch op).all fun e => (instrOf e 0 0).all fun j => decide (opcode j = op)) = true := by decide +kernel
  have h0 := key op
  rw [h] at h0
  clear key
  cases i <;> exact (of_decide_eq_true h0).symm

/-- A three-byte window decodes exactly when its first byte is mapped, and then to the entry's instruction. -/
theorem decode_window (op b1 b2 : Byte) :
    (dispatch op = none ∧ decode [op, b1, b2] = .error (.unmapped op)) ∨
      ∃ i rest, dispatch op = some i.entry ∧ instrOf i.entry b1 b2 = some i ∧
        decode [op, b1, b2] = .ok (i, rest) := by
  cases h : dispatch op with
  | none => exact .inl ⟨rfl, by simp [decode, h]⟩
  | some e =>
    obtain ⟨i, hi⟩ := instrOf_of_dispatch op e b1 b2 h
    have he := entry_of_instrOf e b1 b2 i hi
    subst he
    refine .inr ⟨i, ?_⟩
    cases i <;> simp_all [decode, decodeAs, instrOf, Instr.entry, Mode.format]

end Sys2Proof
end

