-- ==== Sys2Proof/Laws/Memory.lean ====
section
/-! SUPPORT. What a read sees after each memory operation, and that every memory operation keeps the canonical form. -/

namespace Sys2Proof.Machine

theorem Memory.lookup_erase (m : Memory) (a b : Nat) :
    Memory.lookup (Memory.erase m a) b = if b = a then 0 else Memory.lookup m b := by
  unfold Memory.erase
  induction m with
  | nil => simp [Memory.lookup]
  | cons c m ih =>
    by_cases hc : c.1 = a <;> by_cases hb : b = a
    · subst hb
      simpa [hc] using ih
    · simpa [Memory.lookup, hc, hb, Ne.symm hb] using ih
    · subst hb
      simpa [Memory.lookup, hc] using ih
    · simp [Memory.lookup, hc, hb, ih]

/-- Needs no order of the list: an index just erased has no other pair. -/
theorem Memory.lookup_insert (m : Memory) (a b : Nat) (v : Byte)
    (h : ∀ c ∈ m, c.1 ≠ a) :
    Memory.lookup (Memory.insert m a v) b = if b = a then v else Memory.lookup m b := by
  induction m with
  | nil => simp [Memory.insert, Memory.lookup, eq_comm]
  | cons c m ih =>
    have hc : c.1 ≠ a := h c (by simp)
    have ih := ih (fun d hd => h d (by simp [hd]))
    by_cases hlt : c.1 < a <;> by_cases hb : b = a
    · subst hb
      simpa [Memory.insert, Memory.lookup, hlt, hc] using ih
    · simp [Memory.insert, Memory.lookup, hlt, hb, ih]
    · subst hb
      simp [Memory.insert, Memory.lookup, hlt]
    · simp [Memory.insert, Memory.lookup, hlt, hb, Ne.symm hb]

theorem Memory.erase_no_key (m : Memory) (a : Nat) : ∀ c ∈ Memory.erase m a, c.1 ≠ a := by
  simp [Memory.erase]

theorem Memory.erase_wf (m : Memory) (a : Nat) (h : Memory.wf m) : Memory.wf (Memory.erase m a) :=
  ⟨h.1.filter _, fun c hc => h.2 c (List.mem_of_mem_filter hc)⟩

theorem Memory.mem_insert (m : Memory) (a : Nat) (v : Byte) (c : Host.Cell)
    (h : c ∈ Memory.insert m a v) : c = (a, v) ∨ c ∈ m := by
  induction m with
  | nil => simpa [Memory.insert] using h
  | cons d m ih =>
    by_cases hlt : d.1 < a
    · simp only [Memory.insert, hlt, if_true, List.mem_cons] at h ⊢
      rcases h with h | h
      · exact .inr (.inl h)
      · exact (ih h).imp_right .inr
    · simpa [Memory.insert, hlt] using h

theorem Memory.insert_wf (m : Memory) (a : Nat) (v : Byte) (ha : a < 65536) (hv : v ≠ 0)
    (hk : ∀ c ∈ m, c.1 ≠ a) (h : Memory.wf m) : Memory.wf (Memory.insert m a v) := by
  refine ⟨?_, fun c hc => ?_⟩
  · induction m with
    | nil => simp [Memory.insert]
    | cons d m ih =>
      have hd : d.1 ≠ a := hk d (by simp)
      have hp := List.pairwise_cons.1 h.1
      by_cases hlt : d.1 < a
      · simp only [Memory.insert, hlt, if_true]
        refine List.pairwise_cons.2 ⟨fun c hc => ?_, ih (fun c hc => hk c (by simp [hc]))
          ⟨hp.2, fun c hc => h.2 c (by simp [hc])⟩⟩
        rcases Memory.mem_insert m a v c hc with rfl | hc
        · exact hlt
        · exact hp.1 c hc
      · simp only [Memory.insert, hlt, if_false]
        refine List.pairwise_cons.2 ⟨fun c hc => ?_, h.1⟩
        have had : a < d.1 := by omega
        rcases List.mem_cons.1 hc with rfl | hc
        · exact had
        · exact lt_trans had (hp.1 c hc)
  · rcases Memory.mem_insert m a v c hc with rfl | hc
    · exact ⟨ha, hv⟩
    · exact h.2 c hc

/-- A store keeps the canonical form. -/
theorem Memory.write_wf (m : Memory) (addr : Nat) (v : Byte) (h : Memory.wf m) :
    Memory.wf (Memory.write m addr v) := by
  unfold Memory.write
  split
  · exact Memory.erase_wf m _ h
  · exact Memory.insert_wf _ _ v (Nat.mod_lt _ (by decide)) ‹_› (Memory.erase_no_key m _) (Memory.erase_wf m _ h)

/-- The image load keeps the canonical form. -/
theorem Memory.loadImage_wf (bytes : List Byte) (m : Memory) (origin : Nat) (h : Memory.wf m) :
    Memory.wf (Memory.loadImage m origin bytes) := by
  induction bytes generalizing m origin with
  | nil => exact h
  | cons b bytes ih => exact ih _ _ (Memory.write_wf m origin b h)

@[simp] theorem Memory.read_nil (addr : Nat) : Memory.read [] addr = 0 := rfl

@[simp] theorem Memory.loadImage_nil (m : Memory) (origin : Nat) : Memory.loadImage m origin [] = m := rfl

@[simp] theorem Memory.loadImage_cons (m : Memory) (origin : Nat) (b : Byte) (bytes : List Byte) :
    Memory.loadImage m origin (b :: bytes) = Memory.loadImage (Memory.write m origin b) (origin + 1) bytes := rfl

end Sys2Proof.Machine
end

