-- ==== Sys2Proof/Laws/State.lean ====
section
/-! SUPPORT. One lemma per field per update of State, so that no later proof unfolds a record update. -/

namespace Sys2Proof.Machine

variable (s : State) (r : Reg) (m : Mode) (v op : Byte) (addr : Nat)

@[simp] theorem State.advance_a : (s.advance m).a = s.a := rfl
@[simp] theorem State.advance_x : (s.advance m).x = s.x := rfl
@[simp] theorem State.advance_y : (s.advance m).y = s.y := rfl
@[simp] theorem State.advance_sp : (s.advance m).sp = s.sp := rfl
@[simp] theorem State.advance_pc : (s.advance m).pc = s.pc + BitVec.ofNat 16 m.len := rfl
@[simp] theorem State.advance_run : (s.advance m).run = s.run := rfl
@[simp] theorem State.advance_haltInfo : (s.advance m).haltInfo = s.haltInfo := rfl
@[simp] theorem State.advance_mem : (s.advance m).mem = s.mem := rfl
@[simp] theorem State.advance_reg : (s.advance m).reg r = s.reg r := by cases r <;> rfl

@[simp] theorem State.memWrite_a : (s.memWrite addr v).a = s.a := rfl
@[simp] theorem State.memWrite_x : (s.memWrite addr v).x = s.x := rfl
@[simp] theorem State.memWrite_y : (s.memWrite addr v).y = s.y := rfl
@[simp] theorem State.memWrite_sp : (s.memWrite addr v).sp = s.sp := rfl
@[simp] theorem State.memWrite_pc : (s.memWrite addr v).pc = s.pc := rfl
@[simp] theorem State.memWrite_run : (s.memWrite addr v).run = s.run := rfl
@[simp] theorem State.memWrite_haltInfo : (s.memWrite addr v).haltInfo = s.haltInfo := rfl
@[simp] theorem State.memWrite_mem : (s.memWrite addr v).mem = Memory.write s.mem addr v := rfl
@[simp] theorem State.memWrite_reg : (s.memWrite addr v).reg r = s.reg r := by cases r <;> rfl

@[simp] theorem enterHalt_a : (enterHalt op s).a = s.a := rfl
@[simp] theorem enterHalt_x : (enterHalt op s).x = s.x := rfl
@[simp] theorem enterHalt_y : (enterHalt op s).y = s.y := rfl
@[simp] theorem enterHalt_sp : (enterHalt op s).sp = s.sp := rfl
@[simp] theorem enterHalt_pc : (enterHalt op s).pc = s.pc := rfl
@[simp] theorem enterHalt_run : (enterHalt op s).run = .halted := rfl
@[simp] theorem enterHalt_haltInfo : (enterHalt op s).haltInfo = some (op, s.pc) := rfl
@[simp] theorem enterHalt_mem : (enterHalt op s).mem = s.mem := rfl
@[simp] theorem enterHalt_reg : (enterHalt op s).reg r = s.reg r := by cases r <;> rfl

@[simp] theorem State.setReg_sp : (s.setReg r v).sp = s.sp := by cases r <;> rfl
@[simp] theorem State.setReg_pc : (s.setReg r v).pc = s.pc := by cases r <;> rfl
@[simp] theorem State.setReg_run : (s.setReg r v).run = s.run := by cases r <;> rfl
@[simp] theorem State.setReg_haltInfo : (s.setReg r v).haltInfo = s.haltInfo := by cases r <;> rfl
@[simp] theorem State.setReg_mem : (s.setReg r v).mem = s.mem := by cases r <;> rfl
@[simp] theorem State.setReg_a_a : (s.setReg .a v).a = v := rfl
@[simp] theorem State.setReg_a_x : (s.setReg .a v).x = s.x := rfl
@[simp] theorem State.setReg_a_y : (s.setReg .a v).y = s.y := rfl
@[simp] theorem State.setReg_x_a : (s.setReg .x v).a = s.a := rfl
@[simp] theorem State.setReg_x_x : (s.setReg .x v).x = v := rfl
@[simp] theorem State.setReg_x_y : (s.setReg .x v).y = s.y := rfl
@[simp] theorem State.setReg_y_a : (s.setReg .y v).a = s.a := rfl
@[simp] theorem State.setReg_y_x : (s.setReg .y v).x = s.x := rfl
@[simp] theorem State.setReg_y_y : (s.setReg .y v).y = v := rfl

@[simp] theorem State.reg_a : s.reg .a = s.a := rfl
@[simp] theorem State.reg_x : s.reg .x = s.x := rfl
@[simp] theorem State.reg_y : s.reg .y = s.y := rfl

/-- A register write is seen in that register and in no other. -/
theorem State.reg_setReg (q : Reg) : (s.setReg r v).reg q = if q = r then v else s.reg q := by
  cases r <;> cases q <;> rfl

@[simp] theorem State.advance_memRead : (s.advance m).memRead addr = s.memRead addr := rfl
@[simp] theorem State.setReg_memRead : (s.setReg r v).memRead addr = s.memRead addr := by cases r <;> rfl
@[simp] theorem enterHalt_memRead : (enterHalt op s).memRead addr = s.memRead addr := rfl

theorem State.memRead_def : s.memRead addr = Memory.read s.mem addr := rfl

@[simp] theorem State.resetWith_a (p : Params) : (State.resetWith p).a = 0 := rfl
@[simp] theorem State.resetWith_x (p : Params) : (State.resetWith p).x = 0 := rfl
@[simp] theorem State.resetWith_y (p : Params) : (State.resetWith p).y = 0 := rfl
@[simp] theorem State.resetWith_haltInfo (p : Params) : (State.resetWith p).haltInfo = none := rfl
@[simp] theorem State.resetWith_sp (p : Params) : (State.resetWith p).sp = p.spReset := rfl
@[simp] theorem State.resetWith_pc (p : Params) : (State.resetWith p).pc = p.origin := rfl
@[simp] theorem State.resetWith_run (p : Params) : (State.resetWith p).run = .running := rfl
@[simp] theorem State.resetWith_mem (p : Params) :
    (State.resetWith p).mem = Memory.loadImage [] p.origin.toNat p.image := rfl

end Sys2Proof.Machine
end

