-- ==== Sys2Proof/Laws/Operands.lean ====
section
/-! SUPPORT. The resolver's addresses, the operand bytes and the PC advance as numbers. -/

namespace Sys2Proof.Machine

/-- b1 is read at (PC + 1) mod 65536 (R70). -/
theorem operand1_eq (s : State) : s.operand1 = s.memRead ((s.pc.toNat + 1) % 65536) := by
  simp [State.operand1, BitVec.toNat_add]

/-- b2 is read at (PC + 2) mod 65536 (R70). -/
theorem operand2_eq (s : State) : s.operand2 = s.memRead ((s.pc.toNat + 2) % 65536) := by
  simp [State.operand2, BitVec.toNat_add]

theorem pc_add_eq (pc : Addr) (k : Nat) : pc + BitVec.ofNat 16 k = BitVec.ofNat 16 ((pc.toNat + k) % 65536) := by
  apply BitVec.eq_of_toNat_eq
  simp [BitVec.toNat_add]

theorem eaZeroPage_toNat (b : Byte) : (eaZeroPage b).toNat = b.toNat := by
  have := b.isLt
  simp only [eaZeroPage, BitVec.toNat_setWidth]
  omega

theorem eaZeroPageX_toNat (b x : Byte) : (eaZeroPageX b x).toNat = (b.toNat + x.toNat) % 256 := by
  simp only [eaZeroPageX, BitVec.toNat_setWidth, BitVec.toNat_add]
  omega

theorem eaAbsolute_toNat (lo hi : Byte) : (eaAbsolute lo hi).toNat = hi.toNat * 256 + lo.toNat := by
  have h := lo.isLt
  simp only [eaAbsolute, addrOf, BitVec.toNat_append]
  rw [← Nat.shiftLeft_add_eq_or_of_lt (by simpa using h), Nat.shiftLeft_eq]

theorem eaAbsoluteX_toNat (lo hi x : Byte) :
    (eaAbsoluteX lo hi x).toNat = (hi.toNat * 256 + lo.toNat + x.toNat) % 65536 := by
  have h : (addrOf lo hi).toNat = hi.toNat * 256 + lo.toNat := eaAbsolute_toNat lo hi
  simp only [eaAbsoluteX, BitVec.toNat_add, h, BitVec.toNat_setWidth]
  omega

end Sys2Proof.Machine
end

