-- ==== Sys2Proof/Laws/PerInstr.lean ====
section
/-! SUPPORT. Facts about every instruction as syntax, one lemma per constructor. -/

namespace Sys2Proof.Laws.EncodedForm

/-- The instruction is well formed, its encoding is LEN(mode) bytes long (R52), and it begins with the opcode byte that
selects its entry (R54). -/
def Statement (i : Instr) : Prop :=
  i.wf = true ∧ (encode i).length = i.entry.mode.len ∧ (encode i).head? = some (opcode i) ∧
    dispatch (opcode i) = some i.entry

theorem ldaImm (d8 : Byte) : Statement (.ldaImm d8) := ⟨rfl, rfl, rfl, rfl⟩
theorem ldaZp (d8 : Byte) : Statement (.ldaZp d8) := ⟨rfl, rfl, rfl, rfl⟩
theorem ldaZpX (d8 : Byte) : Statement (.ldaZpX d8) := ⟨rfl, rfl, rfl, rfl⟩
theorem ldaAbs (lo hi : Byte) : Statement (.ldaAbs lo hi) := ⟨rfl, rfl, rfl, rfl⟩
theorem ldaAbsX (lo hi : Byte) : Statement (.ldaAbsX lo hi) := ⟨rfl, rfl, rfl, rfl⟩
theorem ldxImm (d8 : Byte) : Statement (.ldxImm d8) := ⟨rfl, rfl, rfl, rfl⟩
theorem ldxZp (d8 : Byte) : Statement (.ldxZp d8) := ⟨rfl, rfl, rfl, rfl⟩
theorem ldxAbs (lo hi : Byte) : Statement (.ldxAbs lo hi) := ⟨rfl, rfl, rfl, rfl⟩
theorem ldyImm (d8 : Byte) : Statement (.ldyImm d8) := ⟨rfl, rfl, rfl, rfl⟩
theorem ldyZp (d8 : Byte) : Statement (.ldyZp d8) := ⟨rfl, rfl, rfl, rfl⟩
theorem ldyZpX (d8 : Byte) : Statement (.ldyZpX d8) := ⟨rfl, rfl, rfl, rfl⟩
theorem ldyAbs (lo hi : Byte) : Statement (.ldyAbs lo hi) := ⟨rfl, rfl, rfl, rfl⟩
theorem ldyAbsX (lo hi : Byte) : Statement (.ldyAbsX lo hi) := ⟨rfl, rfl, rfl, rfl⟩
theorem staZp (d8 : Byte) : Statement (.staZp d8) := ⟨rfl, rfl, rfl, rfl⟩
theorem stxZp (d8 : Byte) : Statement (.stxZp d8) := ⟨rfl, rfl, rfl, rfl⟩
theorem styZp (d8 : Byte) : Statement (.styZp d8) := ⟨rfl, rfl, rfl, rfl⟩

end Sys2Proof.Laws.EncodedForm
end

