-- ==== Sys2Proof/Laws/Step.lean ====
section
/-! SUPPORT. What each shared operation, a meaning and a step can do, said once. -/

namespace Sys2Proof.Machine

/-- The end of a Load: one register, and PC (R81). -/
theorem loadInto_eq (r : Reg) (m : Mode) (v : Byte) (s : State) :
    loadInto r m v s = { s.setReg r v with pc := s.pc + BitVec.ofNat 16 m.len } := by
  cases r <;> rfl

/-- A Load in a memory mode is the same with the byte at the effective address. -/
theorem loadFrom_eq (r : Reg) (m : Mode) (ea : Addr) (s : State) :
    loadFrom r m ea s = loadInto r m (Memory.read s.mem ea.toNat) s := rfl

/-- A Store: one byte of memory, and PC (R100). -/
theorem storeTo_eq (r : Reg) (m : Mode) (ea : Addr) (s : State) :
    storeTo r m ea s =
      { s with mem := Memory.write s.mem ea.toNat (s.reg r), pc := s.pc + BitVec.ofNat 16 m.len } := rfl

/-- A Load instruction writes some byte to its target register and advances PC. -/
theorem exec_of_load (i : Instr) (s : State) (h : i.entry.kind = .load) :
    ∃ v, exec i s = .next (loadInto i.entry.reg i.entry.mode v s) := by
  cases i <;> first | exact ⟨_, rfl⟩ | exact absurd h (by simp [Instr.entry])

/-- A Store instruction stores its register at the zero-page address of its operand byte and advances PC. -/
theorem exec_of_store (i : Instr) (s : State) (h : i.entry.kind = .store) :
    exec i s = .next (storeTo i.entry.reg .zeroPage (eaZeroPage ((operandBytes i).headD 0)) s) := by
  cases i <;> first | rfl | exact absurd h (by simp [Instr.entry])

/-- What a meaning can do: a Load's end or a Store. -/
theorem exec_cases (i : Instr) (s : State) :
    (i.entry.kind = .load ∧ ∃ v, exec i s = .next (loadInto i.entry.reg i.entry.mode v s)) ∨
      (i.entry.kind = .store ∧
        exec i s = .next (storeTo i.entry.reg .zeroPage (eaZeroPage ((operandBytes i).headD 0)) s)) := by
  cases h : i.entry.kind with
  | load => exact .inl ⟨rfl, exec_of_load i s h⟩
  | store => exact .inr ⟨rfl, exec_of_store i s h⟩

/-- What a fetch can find: an unmapped opcode byte, or the instruction its entry and operand bytes name. -/
theorem fetchInstr_cases (s : State) :
    (dispatch s.opcodeByte = none ∧ fetchInstr s = .error (.unmapped s.opcodeByte)) ∨
      ∃ i, dispatch s.opcodeByte = some i.entry ∧ instrOf i.entry s.operand1 s.operand2 = some i ∧
        fetchInstr s = .ok i := by
  rcases decode_window s.opcodeByte s.operand1 s.operand2 with ⟨h, hd⟩ | ⟨i, rest, h, hi, hd⟩
  · exact .inl ⟨h, by simp [fetchInstr, State.fetchBytes, hd]⟩
  · exact .inr ⟨i, h, hi, by simp [fetchInstr, State.fetchBytes, hd]⟩

/-- What a step can do: nothing in Halted, the halt on an unmapped byte, or the instruction at PC. -/
theorem step_cases (s : State) :
    (s.run = .halted ∧ step s = .next s) ∨
      (s.run = .running ∧ dispatch s.opcodeByte = none ∧ step s = .next (enterHalt s.opcodeByte s)) ∨
        ∃ i, s.run = .running ∧ dispatch s.opcodeByte = some i.entry ∧
          instrOf i.entry s.operand1 s.operand2 = some i ∧ step s = exec i s := by
  cases hr : s.run with
  | halted => exact .inl ⟨rfl, by simp [step, hr]⟩
  | running =>
    rcases fetchInstr_cases s with ⟨h, hf⟩ | ⟨i, h, hi, hf⟩
    · exact .inr (.inl ⟨rfl, h, by simp [step, hr, hf]⟩)
    · exact .inr (.inr ⟨i, rfl, h, hi, by simp [step, hr, hf]⟩)

/-- A Load step under any table ends as every Load does. -/
theorem performLoad_eq (r : Reg) (m : Mode) (s : State) : ∃ v, performLoad r m s = loadInto r m v s := by
  unfold performLoad
  split <;> exact ⟨_, rfl⟩

/-- What a step under any dispatch table can do when it answers a next state. -/
theorem stepWith_cases (D : DispatchTable) (s t : State) (h : stepWith D s = .next t) :
    (s.run = .halted ∧ t = s) ∨
      (s.run = .running ∧ D s.opcodeByte = none ∧ t = enterHalt s.opcodeByte s) ∨
        (∃ r m, s.run = .running ∧ D s.opcodeByte = some ⟨.load, r, m⟩ ∧ t = performLoad r m s) ∨
          ∃ r m ea, s.run = .running ∧ D s.opcodeByte = some ⟨.store, r, m⟩ ∧ resolve m s = .ea ea ∧
            t = storeTo r m ea s := by
  unfold stepWith at h
  split at h
  · cases h
    exact .inl ⟨by assumption, rfl⟩
  · split at h
    · cases h
      exact .inr (.inl ⟨by assumption, by assumption, rfl⟩)
    · rename_i e he
      obtain ⟨k, r, m⟩ := e
      cases k
      · cases h
        exact .inr (.inr (.inl ⟨r, m, by assumption, he, rfl⟩))
      · simp only [performStore] at h
        split at h
        · cases h
        · rename_i ea hea
          cases h
          exact .inr (.inr (.inr ⟨r, m, ea, by assumption, he, hea, rfl⟩))

/-- Induction over a run, packaged once: a relation that holds of no steps and extends along one step holds along any
run. -/
theorem runSteps_induction (P : State → State → Prop) (refl : ∀ s, P s s)
    (head : ∀ s t u, step s = .next t → P t u → P s u) (n : Nat) (s t : State) (h : runSteps n s = .next t) :
    P s t := by
  induction n generalizing s with
  | zero =>
    cases h
    exact refl _
  | succ n ih =>
    rw [runSteps] at h
    split at h
    · rename_i u hu
      exact head s u t hu (ih u h)
    · cases h
    · cases h

/-- The literal reset state is the reset state at the default parameters with the empty image. -/
theorem reset_eq_resetWith : State.reset = State.resetWith { image := [] } := rfl

/-- Memory is in canonical form after reset, whatever the parameters. -/
theorem resetWith_wf (p : Params) : Memory.wf (State.resetWith p).mem :=
  Memory.loadImage_wf p.image [] _ ⟨List.Pairwise.nil, by simp⟩

end Sys2Proof.Machine
end

