-- ==== Sys2Proof/Tests/Slice0.lean ====
section
/-! SUPPORT. The model's own tests. Expected results come from spec/95_test_vectors.md (the vector is named in each
comment), from the encodings of spec/30_encoding.md R55, or from the rule named. The theorems named witness_ show a
concrete state and operands that meet a statement's hypotheses. -/

namespace Sys2Proof.Tests

open Sys2Proof.Machine

/-- The vectors' start state: the reset state with `bytes` at 0x0C00 and `cells` preset. -/
def start (bytes : List Byte) (cells : List Host.Cell) : State :=
  { State.reset with
    mem := cells.foldl (fun m c => Memory.write m c.1 c.2) (Memory.loadImage [] 0x0C00 bytes) }

/-- What `f` reads of the state after one step. -/
def after {α : Type} (s : State) (f : State → α) : Option α :=
  match step s with
  | .next t => some (f t)
  | _ => none

/-! ### Well-formedness: an ill-formed term for each check -/

theorem test_wf_store_immediate : Entry.wf ⟨.store, .a, .immediate⟩ = false := by decide
theorem test_wf_store_zeroPageX : Entry.wf ⟨.store, .x, .zeroPageX⟩ = false := by decide
theorem test_wf_store_absolute : Entry.wf ⟨.store, .y, .absolute⟩ = false := by decide
theorem test_wf_store_absoluteX : Entry.wf ⟨.store, .a, .absoluteX⟩ = false := by decide
theorem test_wf_good_entries : Entry.wf ⟨.store, .y, .zeroPage⟩ = true ∧ Entry.wf ⟨.load, .x, .absoluteX⟩ = true := by
  decide

/-- The default table with one byte changed. -/
def changed (op : Byte) (e : Option Entry) : DispatchTable := fun b => if b = op then e else dispatch b

theorem test_R56_item1 : ¬ MeetsR56 (changed 0xA9 none) := by decide +kernel
theorem test_R56_item2 : ¬ MeetsR56 (changed 0xA5 (some ⟨.load, .a, .absolute⟩)) := by decide +kernel
theorem test_R56_item3 : ¬ MeetsR56 (changed 0x85 none) := by decide +kernel
theorem test_R56_item4 : ¬ MeetsR56 (changed 0xFF (some ⟨.load, .a, .immediate⟩)) := by decide +kernel
theorem test_R56_item6 : ¬ MeetsR56 (changed 0x8D (some ⟨.store, .a, .absolute⟩)) := by decide +kernel
theorem test_R56_item7_stx : ¬ MeetsR56 (changed 0x86 none) := by decide +kernel
theorem test_R56_item7_sty : ¬ MeetsR56 (changed 0x84 none) := by decide +kernel
theorem test_R56_item7_ldy : ¬ MeetsR56 (changed 0xA4 none) := by decide +kernel
theorem test_R56_item8 : ¬ MeetsR56 (fun b => if b = 0xB4 ∨ b = 0xB5 then none else dispatch b) := by decide +kernel

theorem test_memory_wf_unsorted : ¬ Memory.wf [(2, 1), (1, 1)] := by decide
theorem test_memory_wf_repeat : ¬ Memory.wf [(1, 1), (1, 2)] := by decide
theorem test_memory_wf_zero : ¬ Memory.wf [(1, 0)] := by decide
theorem test_memory_wf_range : ¬ Memory.wf [(65536, 1)] := by decide

/-! ### Decoding: every constructor, bytes written out from R55 and R51 -/

theorem test_decode_ldaImm : decode [0b10101001, 0x42] = .ok (.ldaImm 0x42, []) := rfl
theorem test_decode_ldaZp : decode [0b10100101, 0x10] = .ok (.ldaZp 0x10, []) := rfl
theorem test_decode_ldaZpX : decode [0b10110101, 0x01] = .ok (.ldaZpX 0x01, []) := rfl
theorem test_decode_ldaAbs : decode [0b10101101, 0x34, 0x12] = .ok (.ldaAbs 0x34 0x12, []) := rfl
theorem test_decode_ldaAbsX : decode [0b10111101, 0xFF, 0x0B] = .ok (.ldaAbsX 0xFF 0x0B, []) := rfl
theorem test_decode_ldxImm : decode [0b10100010, 0xFF] = .ok (.ldxImm 0xFF, []) := rfl
theorem test_decode_ldxZp : decode [0b10100110, 0x20] = .ok (.ldxZp 0x20, []) := rfl
theorem test_decode_ldxAbs : decode [0b10101110, 0x00, 0x20] = .ok (.ldxAbs 0x00 0x20, []) := rfl
theorem test_decode_ldyImm : decode [0b10100000, 0x7E] = .ok (.ldyImm 0x7E, []) := rfl
theorem test_decode_ldyZp : decode [0b10100100, 0x10] = .ok (.ldyZp 0x10, []) := rfl
theorem test_decode_ldyZpX : decode [0b10110100, 0x80] = .ok (.ldyZpX 0x80, []) := rfl
theorem test_decode_ldyAbs : decode [0b10101100, 0xFE, 0xFF] = .ok (.ldyAbs 0xFE 0xFF, []) := rfl
theorem test_decode_ldyAbsX : decode [0b10111100, 0x01, 0xFF] = .ok (.ldyAbsX 0x01 0xFF, []) := rfl
theorem test_decode_staZp : decode [0b10000101, 0x10] = .ok (.staZp 0x10, []) := rfl
theorem test_decode_stxZp : decode [0b10000110, 0x21] = .ok (.stxZp 0x21, []) := rfl
theorem test_decode_styZp : decode [0b10000100, 0x20] = .ok (.styZp 0x20, []) := rfl

/-- E3, E4: bytes a 6502 maps and this hardware does not. -/
theorem test_decode_unmapped :
    ([0xEA, 0x00, 0x4C, 0x60, 0x8D, 0x95, 0x96, 0xB6, 0xBE, 0xB9, 0xA1, 0xB1, 0xA3, 0x83, 0x87, 0xFF] : List Byte).all
      (fun op => (dispatch op).isNone) = true := by decide

theorem test_table_word_b3 : decodeTableWord 24 0x0BFFBD = some (.ldaAbsX 0xFF 0x0B) := by decide
theorem test_table_word_short : decodeTableWord 8 0x42A9 = some (.ldaImm 0x00) := by decide
theorem test_placed_word_runs :
    after (State.reset.withFetchWord 16 0x42A9) (fun t => (t.a, t.pc)) = some (0x42#8, 0x0C02#16) := by decide

/-! ### One step per instruction -/

/-- S2 -/
theorem test_ldaImm : after (start [0xA9, 0x42] []) (fun t => (t.a, t.pc)) = some (0x42#8, 0x0C02#16) := by decide
/-- L24: operand fetch and PC wrap -/
theorem test_ldaImm_wraps : after { start [] [(0xFFFF, 0xA9), (0, 0x5A)] with pc := 0xFFFF } (fun t => (t.a, t.pc)) =
    some (0x5A#8, 0x0001#16) := by decide
/-- S3 -/
theorem test_ldaZp : after (start [0xA5, 0x10] [(0x10, 0x7F)]) (fun t => (t.a, t.pc)) = some (0x7F#8, 0x0C02#16) := by
  decide
/-- L5: never-written memory reads 00 -/
theorem test_ldaZp_unwritten : after { start [0xA5, 0x40] [] with a := 0x55 } (fun t => t.a) = some 0x00#8 := by decide
/-- S4, L6: the 8-bit wrap -/
theorem test_ldaZpX : after { start [0xB5, 0x01] [(0, 0x11), (0x101, 0xEE)] with x := 0xFF } (fun t => (t.a, t.pc)) =
    some (0x11#8, 0x0C02#16) := by decide
/-- L10: loads its own opcode -/
theorem test_ldaAbs : after (start [0xAD, 0x00, 0x0C] []) (fun t => (t.a, t.pc)) = some (0xAD#8, 0x0C03#16) := by decide
/-- L25: a 3-byte instruction across the wrap -/
theorem test_ldaAbs_wraps :
    after { start [] [(0xFFFE, 0xAD), (0xFFFF, 0x34), (0, 0x12), (0x1234, 0xC3)] with pc := 0xFFFE }
      (fun t => (t.a, t.pc)) = some (0xC3#8, 0x0001#16) := by decide
/-- L11: the carry into the high byte -/
theorem test_ldaAbsX : after { start [0xBD, 0xFF, 0x0B] [] with x := 0x02 } (fun t => (t.a, t.pc)) =
    some (0xFF#8, 0x0C03#16) := by decide
/-- L13: X is unsigned -/
theorem test_ldaAbsX_unsigned :
    after { start [0xBD, 0x00, 0x20] [(0x20FF, 0x3C), (0x1FFF, 0xEE)] with x := 0xFF } (fun t => t.a) =
      some 0x3C#8 := by decide
/-- L14 -/
theorem test_ldxImm : after (start [0xA2, 0xFF] []) (fun t => (t.x, t.pc)) = some (0xFF#8, 0x0C02#16) := by decide
/-- L15: the old X is no index -/
theorem test_ldxZp : after { start [0xA6, 0x20] [(0x20, 0x33), (0x27, 0xEE)] with x := 0x07 } (fun t => (t.x, t.pc)) =
    some (0x33#8, 0x0C02#16) := by decide
/-- L16 -/
theorem test_ldxAbs : after (start [0xAE, 0x00, 0x20] [(0x2000, 0x09)]) (fun t => (t.x, t.pc)) =
    some (0x09#8, 0x0C03#16) := by decide
/-- L23: only the target changes -/
theorem test_ldyImm : after { start [0xA0, 0x09] [] with a := 1, x := 2, y := 3 }
    (fun t => (t.a, t.x, t.y, t.sp, t.pc)) = some (1#8, 2#8, 9#8, 0x0100#16, 0x0C02#16) := by decide
/-- L18 -/
theorem test_ldyZp : after (start [0xA4, 0x10] [(0x10, 0x05)]) (fun t => (t.y, t.pc)) = some (0x05#8, 0x0C02#16) := by
  decide
/-- L20: the index is X, not Y -/
theorem test_ldyZpX : after { start [0xB4, 0x10] [(0x12, 0x66), (0x13, 0xEE)] with y := 3, x := 2 } (fun t => t.y) =
    some 0x66#8 := by decide
/-- L19: the 8-bit wrap -/
theorem test_ldyZpX_wraps : after { start [0xB4, 0x80] [(0, 0x44)] with x := 0x80 } (fun t => t.y) =
    some 0x44#8 := by decide
/-- L21: top of memory -/
theorem test_ldyAbs : after (start [0xAC, 0xFF, 0xFF] [(0xFFFF, 0x21)]) (fun t => (t.y, t.pc)) =
    some (0x21#8, 0x0C03#16) := by decide
/-- L22: wrap to 0000 -/
theorem test_ldyAbsX : after { start [0xBC, 0x01, 0xFF] [(0, 0x66)] with x := 0xFF } (fun t => (t.y, t.pc)) =
    some (0x66#8, 0x0C03#16) := by decide
/-- T3: the highest reachable address -/
theorem test_staZp : after { start [0x85, 0xFF] [] with a := 1 }
    (fun t => (t.memRead 0xFF, t.memRead 0x100, t.a, t.pc)) = some (1#8, 0#8, 1#8, 0x0C02#16) := by decide
/-- T8: a store over its own operand byte does not alter this step -/
theorem test_staZp_own_operand : after { start [] [(0x10, 0x85), (0x11, 0x11)] with pc := 0x0010, a := 0x77 }
    (fun t => (t.memRead 0x11, t.pc)) = some (0x77#8, 0x0012#16) := by decide
/-- T6: X is the datum, not an index -/
theorem test_stxZp : after { start [0x86, 0x10] [] with x := 5 } (fun t => (t.memRead 0x10, t.memRead 0x15)) =
    some (5#8, 0#8) := by decide
/-- T7 -/
theorem test_styZp : after { start [0x84, 0x20] [] with y := 0x11 } (fun t => (t.memRead 0x20, t.pc)) =
    some (0x11#8, 0x0C02#16) := by decide

/-! ### The loop, the trace, the bus, the image -/

/-- E1, S6 -/
theorem test_halt : after (State.resetWith { image := [0xFF] })
    (fun t => (t.run, t.haltInfo, t.pc, t.a, t.sp)) =
      some (.halted, some (0xFF#8, 0x0C00#16), 0x0C00#16, 0#8, 0x0100#16) := by decide
/-- E2: from the reset state with the empty image -/
theorem test_halt_empty_image : after State.reset (fun t => t.haltInfo) = some (some (0#8, 0x0C00#16)) ∧
    haltReason { image := [] } (0x00, 0x0C00) = .endOfStream := by decide
/-- E5 -/
theorem test_halted_is_identity : step { State.reset with run := .halted } = .next { State.reset with run := .halted } :=
  rfl
/-- E6: records and tag of the image A9 01 FF -/
theorem test_trace : traceOfRun 3 (State.resetWith { image := [0xA9, 0x01, 0xFF] }) =
      [⟨0x01, 0, 0, 0x0100, 0x0C02⟩, ⟨0x01, 0, 0, 0x0100, 0x0C02⟩] ∧
    haltReason { image := [0xA9, 0x01, 0xFF] } (0xFF, 0x0C02) = .illegalOpcode := by decide
/-- E7 -/
theorem test_haltReason : haltReason { image := [0xA9, 0x01] } (0x00, 0x0C02) = .endOfStream := by decide
/-- Program 4: the halt at 0004 of an image that wraps -/
theorem test_haltReason_wraps :
    haltReason { origin := 0xFFFC, image := [0xA9, 0xA2, 0x85, 0x02, 0xA9, 0x07, 0xFF, 0x33, 0xFF] } (0xFF, 0x0004) =
      .illegalOpcode := by decide
/-- E9 -/
theorem test_render : State.reset.traceRecord.render =
    [['A', ':', ' ', '0', 'x', '0', '0'], ['X', ':', ' ', '0', 'x', '0', '0'], ['Y', ':', ' ', '0', 'x', '0', '0'],
      ['S', 'P', ':', ' ', '0', 'x', '0', '1', '0', '0'], ['P', 'C', ':', ' ', '0', 'x', '0', 'c', '0', '0']] := by
  decide
theorem test_haltedOutput : State.reset.haltedOutput = false ∧
    ({ State.reset with run := .halted } : State).haltedOutput = true := by decide
/-- R45: opcode, two operand bytes, one data read -/
theorem test_bus_load : busTransfers dispatch (start [0xAD, 0x34, 0x12] [(0x1234, 0x5A)]) =
    [.read 0x0C00 0xAD, .read 0x0C01 0x34, .read 0x0C02 0x12, .read 0x1234 0x5A] := by decide
theorem test_bus_store : busTransfers dispatch { start [0x85, 0x10] [] with a := 5 } =
    [.read 0x0C00 0x85, .read 0x0C01 0x10, .write 0x0010 0x05] := by decide
/-- M2, M4's order on a short image: a wrap, and a later byte that overwrites -/
theorem test_image_wraps : Memory.loadImage [] 0xFFFF [0x11, 0x22, 0x33] = [(0, 0x22), (1, 0x33), (0xFFFF, 0x11)] := by
  decide
/-- M5, T4: a write wraps, and writing 00 takes the pair away -/
theorem test_write : Memory.read (Memory.write [] 0x1FFFF 0x7E) 0xFFFF = 0x7E ∧
    Memory.write [(0x10, 0x7F)] 0x10 0 = [] := by decide
/-- R152: reset from Halted -/
theorem test_reset_input : assertReset { image := [0xA9] } { State.reset with run := .halted, a := 9 } =
    State.resetWith { image := [0xA9] } := rfl
/-- A table that breaks R56 item 6 stops by name (R100). -/
theorem test_store_without_address :
    (match stepWith (changed 0x00 (some ⟨.store, .x, .immediate⟩)) State.reset with
      | .fault r => some r
      | _ => none) = some (.storeWithoutAddress .x) := by decide

/-! ### Witnesses: the hypotheses of each statement can be met -/

theorem witness_DecodeEncodeInverse :
    Instr.wf (.ldaAbsX 0xFF 0xFF) = true ∧ decode [0xA0, 0x7E, 0x01] = .ok (.ldyImm 0x7E, [0x01]) := ⟨rfl, rfl⟩

theorem witness_LengthFollowsMode :
    decode [0xA9, 0x00] = .ok (.ldaImm 0x00, []) ∧ decode [0x84, 0xFF] = .ok (.styZp 0xFF, []) ∧
    decode [0xB4, 0xFF] = .ok (.ldyZpX 0xFF, []) ∧ decode [0xAE, 0xFF, 0xFF] = .ok (.ldxAbs 0xFF 0xFF, []) ∧
    decode [0xBC, 0xFF, 0xFF] = .ok (.ldyAbsX 0xFF 0xFF, []) := ⟨rfl, rfl, rfl, rfl, rfl⟩

theorem witness_CanonicalMemoryExtensional :
    Memory.wf [(0, 1), (65535, 2)] ∧ Memory.wf (Memory.write [(65535, 2)] 0x10000 1) ∧
    (∀ a, a < 65536 → Memory.read [(0, 1), (65535, 2)] a = Memory.read (Memory.write [(65535, 2)] 0x10000 1) a) :=
  ⟨by decide, by decide, fun _ _ => rfl⟩

/-- The last byte of an image that wraps, and an address the image does not cover. -/
theorem witness_LoadImagePlacesBytes :
    (1 < [0x11, 0x22].length ∧
      (∀ j, 1 < j → j < [0x11, 0x22].length → (65535 + j) % 65536 ≠ (65535 + 1) % 65536)) ∧
    (∀ i, i < [0x11, 0x22].length → (65535 + i) % 65536 ≠ 1 % 65536) := by
  refine ⟨⟨by decide, fun j h1 h2 => ?_⟩, fun i hi => ?_⟩
  · simp at h2
    omega
  · simp at hi
    omega

theorem witness_ResolveZeroPageX :
    resolve .zeroPageX { start [0xB5, 0x01] [] with x := 0xFF } = .ea 0x0000 ∧
    256 ≤ ((start [0xB5, 0x01] []).memRead ((0x0C00 + 1) % 65536)).toNat + (0xFF#8).toNat := by decide

theorem witness_ResolverReadsOnlyItsInputs :
    let s := { start [0xBD, 0xFF, 0x0B] [] with x := 2, a := 7 }
    let t := { start [0xAE, 0xFF, 0x0B] [] with x := 2, y := 9 }
    s.pc = t.pc ∧ s.memRead ((s.pc.toNat + 1) % 65536) = t.memRead ((t.pc.toNat + 1) % 65536) ∧
    s.memRead ((s.pc.toNat + 2) % 65536) = t.memRead ((t.pc.toNat + 2) % 65536) ∧ s.x = t.x := by decide

/-- At the top of memory, so that operand fetch and PC advance wrap. -/
theorem witness_LoadOperation :
    let s := { start [] [(0xFFFF, 0xBC), (0, 0x01), (1, 0xFF)] with pc := 0xFFFF, x := 0xFF }
    s.run = .running ∧ dispatch (s.memRead s.pc.toNat) = some ⟨.load, .y, .absoluteX⟩ := by decide

theorem witness_StoreOperation :
    let s := { start [] [(0xFFFF, 0x86), (0, 0xFF)] with pc := 0xFFFF, x := 1 }
    s.run = .running ∧ dispatch (s.memRead s.pc.toNat) = some ⟨.store, .x, .zeroPage⟩ := by decide

theorem witness_MeetsR56 : MeetsR56 dispatch := by decide +kernel

theorem witness_IndexedLoadXUsesOldX :
    let s := { start [0xB6, 0xFF] [] with x := 1 }
    s.run = .running ∧
    changed 0xB6 (some ⟨.load, .x, .zeroPageX⟩) (s.memRead s.pc.toNat) = some ⟨.load, .x, .zeroPageX⟩ ∧
    changed 0xB6 (some ⟨.load, .x, .absoluteX⟩) (s.memRead s.pc.toNat) = some ⟨.load, .x, .absoluteX⟩ := by decide

theorem witness_LdaImmediate :
    let s := { start [] [(0xFFFF, 0xA9)] with pc := 0xFFFF }
    s.run = .running ∧ s.memRead s.pc.toNat = 0xA9 := by decide

theorem witness_LdaZeroPage :
    let s := { start [] [(0xFFFF, 0xA5)] with pc := 0xFFFF }
    s.run = .running ∧ s.memRead s.pc.toNat = 0xA5 := by decide

theorem witness_StaZeroPage :
    let s := { start [] [(0xFFFF, 0x85)] with pc := 0xFFFF }
    s.run = .running ∧ s.memRead s.pc.toNat = 0x85 := by decide

theorem witness_LoadFrame :
    (Instr.ldxAbs 0xFF 0xFF).entry.kind = .load ∧ ∃ t, exec (.ldxAbs 0xFF 0xFF) State.reset = .next t :=
  ⟨rfl, _, rfl⟩

theorem witness_StoreFrame :
    (Instr.styZp 0xFF).entry.kind = .store ∧ operandBytes (.styZp 0xFF) = [0xFF] ∧
    (∃ t, exec (.styZp 0xFF) State.reset = .next t) ∧ 0x100 % 65536 ≠ (eaZeroPage 0xFF).toNat :=
  ⟨rfl, rfl, ⟨_, rfl⟩, by decide⟩

/-- One instruction for each clause: LDX a16 names neither A nor Y, STY d8 not X (nor an index), and the Loads of A, X
and Y each have the register as their target. -/
theorem witness_RegisterAccessTable :
    ((Instr.ldxAbs 0 0).entry.reg ≠ .a ∧ (Instr.ldxAbs 0 0).entry.reg ≠ .y) ∧
    ((Instr.styZp 0).entry.reg ≠ .x ∧ (Instr.styZp 0).entry.mode ≠ .zeroPageX ∧
      (Instr.styZp 0).entry.mode ≠ .absoluteX) ∧
    ((Instr.ldaImm 0).entry.kind = .load ∧ (Instr.ldaImm 0).entry.reg = .a) ∧
    ((Instr.ldxAbs 0 0).entry.kind = .load ∧ (Instr.ldxAbs 0 0).entry.reg = .x) ∧
    ((Instr.ldyAbsX 0 0).entry.kind = .load ∧ (Instr.ldyAbsX 0 0).entry.reg = .y) ∧
    (∀ i ∈ [Instr.ldxAbs 0 0, .styZp 0, .ldaImm 0, .ldyAbsX 0 0], Completes (exec i State.reset)) := by
  refine ⟨by decide, by decide, by decide, by decide, by decide, ?_⟩
  simp only [List.forall_mem_cons, List.not_mem_nil, false_implies, implies_true, and_true]
  exact ⟨⟨_, rfl⟩, ⟨_, rfl⟩, ⟨_, rfl⟩, ⟨_, rfl⟩⟩

theorem witness_StepRunsDecodedInstruction :
    let s := { start [] [(0xFFFE, 0xAD), (0xFFFF, 0x34), (0, 0x12)] with pc := 0xFFFE }
    s.run = .running ∧
    decode [s.memRead s.pc.toNat, s.memRead ((s.pc.toNat + 1) % 65536), s.memRead ((s.pc.toNat + 2) % 65536)] =
      .ok (.ldaAbs 0x34 0x12, []) := ⟨rfl, rfl⟩

theorem witness_UnmappedOpcodeHalts :
    State.reset.run = .running ∧ dispatch (State.reset.memRead State.reset.pc.toNat) = none := by decide

theorem witness_HaltedIsTerminal : (enterHalt 0 State.reset).run = .halted := rfl

/-- A step that stays Running, one that halts, one in Halted; and an instruction. -/
theorem witness_RunStateTransitions :
    Completes (stepWith dispatch (start [0xA9, 0x01] [])) ∧ Completes (stepWith dispatch State.reset) ∧
    Completes (stepWith dispatch (enterHalt 0 State.reset)) ∧ Completes (exec (.stxZp 0) State.reset) :=
  ⟨⟨_, rfl⟩, ⟨_, rfl⟩, ⟨_, rfl⟩, ⟨_, rfl⟩⟩

/-- A two-byte and a three-byte instruction at the top of memory. -/
theorem witness_PcAdvancesByModeLength :
    let s := { start [] [(0xFFFE, 0xA9)] with pc := 0xFFFE }
    let u := { start [] [(0xFFFE, 0xAD)] with pc := 0xFFFE }
    (s.run = .running ∧ dispatch (s.memRead s.pc.toNat) = some ⟨.load, .a, .immediate⟩ ∧
      Completes (stepWith dispatch s)) ∧
    (u.run = .running ∧ dispatch (u.memRead u.pc.toNat) = some ⟨.load, .a, .absolute⟩ ∧
      Completes (stepWith dispatch u)) :=
  ⟨⟨rfl, rfl, _, rfl⟩, ⟨rfl, rfl, _, rfl⟩⟩

theorem witness_StepKeepsInvariant :
    Inv (start [0x85, 0x10] []) ∧ Completes (step (start [0x85, 0x10] [])) ∧ Inv (enterHalt 0 State.reset) :=
  ⟨by decide, ⟨_, rfl⟩, by decide⟩

theorem witness_SpIsInert :
    Completes (step State.reset) ∧ Completes (runSteps 1 (State.resetWith { image := [0xA9, 0x01] })) :=
  ⟨⟨_, rfl⟩, ⟨_, rfl⟩⟩

/-- The lowest address outside the zero page, and a step that stores to the highest inside it. -/
theorem witness_OnlyZeroPageIsWritten :
    Completes (runSteps 1 { start [0x85, 0xFF] [] with a := 1 }) ∧ 256 ≤ 0x100 % 65536 := ⟨⟨_, rfl⟩, by decide⟩

/-- A Store at the end of memory to 0x0000, 0x0001 and 0x0002: the next opcode byte, its first and second operand. -/
theorem witness_StoreSeenByNextFetch :
    ∀ d8 ∈ ([0x00, 0x01, 0x02] : List Byte),
      (Instr.staZp d8).entry.kind = .store ∧ operandBytes (.staZp d8) = [d8] ∧
      ∃ t, exec (.staZp d8) { State.reset with pc := 0xFFFE, a := 0xA9 } = .next t ∧
        t.pc + BitVec.ofNat 16 d8.toNat = eaZeroPage d8 := by
  simp only [List.forall_mem_cons, List.not_mem_nil, false_implies, implies_true, and_true]
  exact ⟨⟨rfl, rfl, _, rfl, rfl⟩, ⟨rfl, rfl, _, rfl, rfl⟩, ⟨rfl, rfl, _, rfl, rfl⟩⟩

theorem witness_StoreThenLoadRoundTrip :
    let s := { start [0x85, 0xFF, 0xA4, 0xFF] [] with a := 5 }
    s.run = .running ∧ dispatch (s.memRead s.pc.toNat) = some ⟨.store, .a, .zeroPage⟩ ∧
    s.memRead ((s.pc.toNat + 1) % 65536) = 0xFF ∧
    dispatch (s.memRead ((s.pc.toNat + 2) % 65536)) = some ⟨.load, .y, .zeroPage⟩ ∧
    s.memRead ((s.pc.toNat + 3) % 65536) = 0xFF ∧ (0xFF#8).toNat ≠ (s.pc.toNat + 2) % 65536 ∧
    (0xFF#8).toNat ≠ (s.pc.toNat + 3) % 65536 := by decide

/-- The second clause: both instructions in the zero page, the Store over the Load's operand byte. -/
theorem witness_StoreThenLoadRoundTrip_overlap :
    let s := { start [] [(0xFC, 0x85), (0xFD, 0xFF), (0xFE, 0xA4)] with pc := 0x00FC, a := 5 }
    s.run = .running ∧ dispatch (s.memRead s.pc.toNat) = some ⟨.store, .a, .zeroPage⟩ ∧
    s.memRead ((s.pc.toNat + 1) % 65536) = 0xFF ∧
    dispatch (s.memRead ((s.pc.toNat + 2) % 65536)) = some ⟨.load, .y, .zeroPage⟩ ∧
    (0xFF#8).toNat = s.pc.toNat + 3 := by decide

/-- At both ends: PC at e, and e + 2 the top of memory. -/
theorem witness_ZeroBytesEndARun :
    (State.reset.run = .running ∧ 256 ≤ State.reset.pc.toNat ∧ State.reset.pc.toNat ≤ 0x0C00 ∧ 0x0C00 + 2 < 65536 ∧
      State.reset.memRead 0x0C00 = 0 ∧ State.reset.memRead (0x0C00 + 1) = 0 ∧ State.reset.memRead (0x0C00 + 2) = 0) ∧
    (let s := { start [] [(0xFFFB, 0xA9), (0xFFFC, 0xAD)] with pc := 0xFFFB };
      s.run = .running ∧ 256 ≤ s.pc.toNat ∧ s.pc.toNat ≤ 0xFFFD ∧ 0xFFFD + 2 < 65536 ∧
      s.memRead 0xFFFD = 0 ∧ s.memRead (0xFFFD + 1) = 0 ∧ s.memRead (0xFFFD + 2) = 0) := by decide

/-- `n` cells from address `k` on, each holding 0xA9. -/
def filled : Nat → Nat → Memory
  | 0, _ => []
  | n + 1, k => (k, 0xA9) :: filled n (k + 1)

theorem lookup_filled (n k a : Nat) (h1 : k ≤ a) (h2 : a < k + n) : Memory.lookup (filled n k) a = 0xA9 := by
  induction n generalizing k with
  | zero => omega
  | succ n ih =>
    rw [filled, Memory.lookup]
    split
    · rfl
    · exact ih (k + 1) (by omega) (by omega)

theorem witness_RunNeedNotEnd :
    let s := { State.reset with mem := filled 65536 0 }
    s.run = .running ∧ ∀ a : Nat, s.memRead a = 0xA9 :=
  ⟨rfl, fun a => lookup_filled 65536 0 (a % 65536) (Nat.zero_le _) (by omega)⟩

theorem witness_ResetState :
    let p : Params := { origin := 0xFFFF, image := [0x11, 0x22] }
    p.image.length ≤ 65536 ∧ 1 < p.image.length ∧
    (∀ i, i < p.image.length → (p.origin.toNat + i) % 65536 ≠ 1 % 65536) := by decide

theorem witness_FirstFetchReadsTheImage :
    let p : Params := { image := [0xFF] }
    p.image.length ≤ 65536 ∧ dispatch (p.image.headD 0) = none ∧ dispatch (([] : List Byte).headD 0) = none := by decide

/-- One instruction, then the halt. -/
theorem witness_TraceOfARun :
    let s := State.resetWith { image := [0xA9, 0x01, 0xFF] }
    (∃ u, runSteps 1 s = .next u ∧ u.run = .running ∧ dispatch (u.memRead u.pc.toNat) = none) ∧
    (∀ (k : Nat) (w : State), k < 1 → runSteps k s = .next w → dispatch (w.memRead w.pc.toNat) ≠ none) ∧
    (∃ w, runSteps (0 + 1) s = .next w) := by
  refine ⟨⟨_, rfl, by decide, by decide⟩, fun k w hk h => ?_, ⟨_, rfl⟩⟩
  obtain rfl : k = 0 := by omega
  cases h
  decide

/-- The four cases: in Halted, an unmapped byte, an immediate mode, a Store. -/
theorem witness_BusTransfersMatchStep :
    ((enterHalt 0 State.reset).run = .halted ∧ Completes (stepWith dispatch (enterHalt 0 State.reset))) ∧
    (dispatch (State.reset.memRead State.reset.pc.toNat) = none ∧ Completes (stepWith dispatch State.reset)) ∧
    (let s := start [0xA9, 0x01] [];
      dispatch (s.memRead s.pc.toNat) = some ⟨.load, .a, .immediate⟩ ∧ Completes (stepWith dispatch s)) ∧
    (let s := start [0x85, 0xFF] [];
      dispatch (s.memRead s.pc.toNat) = some ⟨.store, .a, .zeroPage⟩ ∧ resolve .zeroPage s = .ea 0x00FF ∧
        Completes (stepWith dispatch s)) :=
  ⟨⟨rfl, _, rfl⟩, ⟨rfl, _, rfl⟩, ⟨rfl, _, rfl⟩, ⟨rfl, by decide, _, rfl⟩⟩

/-- A memory that holds another byte at an address the step does not read. -/
theorem witness_StepLearnsOnlyWhatItReads :
    let s := start [0xA9, 0x01] []
    (∀ x ∈ busTransfers dispatch s, match x with
      | .read addr v => Memory.read (start [0xA9, 0x01, 0x77] []).mem addr.toNat = v
      | .write _ _ => True) ∧
    Completes (stepWith dispatch s) := by
  refine ⟨?_, _, rfl⟩
  have h : busTransfers dispatch (start [0xA9, 0x01] []) = [.read 0x0C00 0xA9, .read 0x0C01 0x01] := by decide
  simp only [h, List.forall_mem_cons, List.not_mem_nil, false_implies, implies_true, and_true]
  decide

theorem witness_PlacedWordRunsNext :
    decodeTableWord 24 0xFFFFBC = some (.ldyAbsX 0xFF 0xFF) ∧ decodeTableWord 8 0x85 = some (.staZp 0) := by decide

end Sys2Proof.Tests
end

/-! SUPPORT. The effect of an instruction in one equation, and what a read sees after a store and an image load. -/

namespace Sys2Proof.Machine

/-! ### Register writes -/

theorem State.setReg_setReg_same (s : State) (r : Reg) (v w : Byte) : (s.setReg r v).setReg r w = s.setReg r w := by
  cases r <;> rfl

theorem State.setReg_comm (s : State) {q r : Reg} (v w : Byte) (h : r ≠ q) :
    (s.setReg q v).setReg r w = (s.setReg r w).setReg q v := by
  cases q <;> cases r <;> simp_all [State.setReg]

/-! ### Fields after a Load's end and after a Store -/

section
variable (r : Reg) (m : Mode) (v : Byte) (ea : Addr) (s : State)

@[simp] theorem loadInto_sp : (loadInto r m v s).sp = s.sp := by simp [loadInto]
@[simp] theorem loadInto_run : (loadInto r m v s).run = s.run := by simp [loadInto]
@[simp] theorem loadInto_haltInfo : (loadInto r m v s).haltInfo = s.haltInfo := by simp [loadInto]
@[simp] theorem loadInto_mem : (loadInto r m v s).mem = s.mem := by simp [loadInto]

@[simp] theorem storeTo_sp : (storeTo r m ea s).sp = s.sp := rfl
@[simp] theorem storeTo_run : (storeTo r m ea s).run = s.run := rfl
@[simp] theorem storeTo_haltInfo : (storeTo r m ea s).haltInfo = s.haltInfo := rfl
@[simp] theorem storeTo_mem : (storeTo r m ea s).mem = Memory.write s.mem ea.toNat (s.reg r) := rfl

/-- A Load overwrites whatever its target held. -/
theorem loadInto_setReg_same (w : Byte) : loadInto r m v (s.setReg r w) = loadInto r m v s := by
  simp only [loadInto, State.setReg_setReg_same]

theorem loadInto_setReg_of_ne (q : Reg) (w : Byte) (h : r ≠ q) :
    loadInto r m v (s.setReg q w) = (loadInto r m v s).setReg q w := by
  rw [loadInto, loadInto, State.setReg_comm s w v h]
  cases q <;> rfl

theorem storeTo_setReg_of_ne (q : Reg) (w : Byte) (h : r ≠ q) :
    storeTo r m ea (s.setReg q w) = (storeTo r m ea s).setReg q w := by
  have hr : (s.setReg q w).reg r = s.reg r := by rw [State.reg_setReg, if_neg h]
  rw [storeTo, storeTo, hr]
  cases q <;> rfl

theorem loadInto_control (sp : Addr) (run : RunState) (info : Option (Byte × Addr)) :
    loadInto r m v { s with sp := sp, run := run, haltInfo := info } =
      { loadInto r m v s with sp := sp, run := run, haltInfo := info } := by
  cases r <;> rfl

theorem storeTo_control (sp : Addr) (run : RunState) (info : Option (Byte × Addr)) :
    storeTo r m ea { s with sp := sp, run := run, haltInfo := info } =
      { storeTo r m ea s with sp := sp, run := run, haltInfo := info } := by
  cases r <;> rfl

end

/-! ### The effect of an instruction -/

/-- The byte a Load of the instruction's mode and operand bytes brings to its target (R81). -/
def loadDatum (i : Instr) (s : State) : Byte :=
  match resolveBytes i.entry.mode ((operandBytes i).getD 0 0) ((operandBytes i).getD 1 0) s.x with
  | .value v => v
  | .ea addr => s.memRead addr.toNat

/-- The state an instruction gives: a Load of its datum (R81), or a Store at its zero-page address (R100). -/
def effect (i : Instr) (s : State) : State :=
  match i.entry.kind with
  | .load => loadInto i.entry.reg i.entry.mode (loadDatum i s) s
  | .store => storeTo i.entry.reg .zeroPage (eaZeroPage ((operandBytes i).headD 0)) s

theorem exec_eq_effect (i : Instr) (s : State) : exec i s = .next (effect i s) := by
  cases i <;> rfl

theorem exec_eq_next_iff (i : Instr) (s t : State) : exec i s = .next t ↔ effect i s = t := by
  rw [exec_eq_effect, Host.Outcome.next.injEq]

theorem effect_of_load (i : Instr) (s : State) (h : i.entry.kind = .load) :
    effect i s = loadInto i.entry.reg i.entry.mode (loadDatum i s) s := by
  simp only [effect, h]

theorem effect_of_store (i : Instr) (s : State) (h : i.entry.kind = .store) :
    effect i s = storeTo i.entry.reg .zeroPage (eaZeroPage ((operandBytes i).headD 0)) s := by
  simp only [effect, h]

/-- The two modes that read X (R73, R75). -/
def Indexed (m : Mode) : Prop := m = .zeroPageX ∨ m = .absoluteX

theorem resolveBytes_of_not_indexed (m : Mode) (b1 b2 x y : Byte) (h : ¬ Indexed m) :
    resolveBytes m b1 b2 x = resolveBytes m b1 b2 y := by
  cases m with
  | immediate | zeroPage | absolute => rfl
  | zeroPageX => exact absurd (.inl rfl) h
  | absoluteX => exact absurd (.inr rfl) h

/-- No instruction has the index register as the target of an indexed mode (R55; log entry 1). -/
theorem not_indexed_of_reg_x (i : Instr) (h : i.entry.reg = .x) : ¬ Indexed i.entry.mode := by
  cases i <;> simp_all [Instr.entry, Indexed]

/-- A Load's datum depends on a register only through the index. -/
theorem loadDatum_setReg (i : Instr) (s : State) (q : Reg) (v : Byte) (hx : q = .x → ¬ Indexed i.entry.mode) :
    loadDatum i (s.setReg q v) = loadDatum i s := by
  cases q with
  | a | y => rfl
  | x =>
    simp only [loadDatum, State.setReg_x_x, State.setReg_memRead]
    rw [resolveBytes_of_not_indexed i.entry.mode _ _ v s.x (hx rfl)]

/-- An instruction neither reads nor writes a register that is not its target, but for X as the index (R23). -/
theorem effect_setReg_of_ne (i : Instr) (s : State) (q : Reg) (v : Byte) (h : i.entry.reg ≠ q)
    (hx : q = .x → ¬ Indexed i.entry.mode) : effect i (s.setReg q v) = (effect i s).setReg q v := by
  cases hk : i.entry.kind with
  | load => simp only [effect_of_load i _ hk, loadDatum_setReg i s q v hx, loadInto_setReg_of_ne _ _ _ _ q v h]
  | store => simp only [effect_of_store i _ hk, storeTo_setReg_of_ne _ _ _ _ q v h]

/-- A Load gives the same state whatever its target held. -/
theorem effect_setReg_target_of_load (i : Instr) (s : State) (v : Byte) (hk : i.entry.kind = .load) :
    effect i (s.setReg i.entry.reg v) = effect i s := by
  simp only [effect_of_load i _ hk, loadDatum_setReg i s i.entry.reg v (not_indexed_of_reg_x i), loadInto_setReg_same]

/-- An instruction neither reads nor writes SP, run and halt_info. -/
theorem effect_control (i : Instr) (s : State) (sp : Addr) (run : RunState) (info : Option (Byte × Addr)) :
    effect i { s with sp := sp, run := run, haltInfo := info } =
      { effect i s with sp := sp, run := run, haltInfo := info } := by
  cases hk : i.entry.kind with
  | load =>
    simp only [effect_of_load i _ hk]
    exact loadInto_control i.entry.reg i.entry.mode (loadDatum i s) s sp run info
  | store =>
    simp only [effect_of_store i _ hk]
    exact storeTo_control i.entry.reg .zeroPage _ s sp run info

@[simp] theorem effect_sp (i : Instr) (s : State) : (effect i s).sp = s.sp := by
  unfold effect
  split <;> simp

@[simp] theorem effect_run (i : Instr) (s : State) : (effect i s).run = s.run := by
  unfold effect
  split <;> simp

@[simp] theorem effect_haltInfo (i : Instr) (s : State) : (effect i s).haltInfo = s.haltInfo := by
  unfold effect
  split <;> simp

/-- An instruction keeps memory canonical. -/
theorem effect_mem_wf (i : Instr) (s : State) (h : Memory.wf s.mem) : Memory.wf (effect i s).mem := by
  cases hk : i.entry.kind with
  | load => rwa [effect_of_load i s hk, loadInto_mem]
  | store =>
    rw [effect_of_store i s hk, storeTo_mem]
    exact Memory.write_wf s.mem _ _ h

/-! ### The step, one equation per branch -/

theorem State.halted_or_running (s : State) : s.run = .halted ∨ s.run = .running := by
  cases s.run <;> simp

theorem step_of_halted (s : State) (hr : s.run = .halted) : step s = .next s := by
  simp only [step, hr]

theorem step_of_fetch_ok (s : State) (i : Instr) (hr : s.run = .running) (hf : fetchInstr s = .ok i) :
    step s = .next (effect i s) := by
  simp only [step, hr, hf, exec_eq_effect]

theorem step_of_fetch_error (s : State) (e : DecodeReject) (hr : s.run = .running) (hf : fetchInstr s = .error e) :
    step s = .next (enterHalt s.opcodeByte s) := by
  simp only [step, hr, hf]

/-! ### Reading memory after a store and after an image load -/

/-- A write sets the byte at the address mod 65536 and no other (R32). -/
theorem Memory.read_write (m : Memory) (addr : Nat) (v : Byte) (b : Nat) :
    Memory.read (Memory.write m addr v) b = if b % 65536 = addr % 65536 then v else Memory.read m b := by
  unfold Memory.read Memory.write
  split
  · next hv => rw [Memory.lookup_erase, hv]
  · rw [Memory.lookup_insert _ _ _ _ (Memory.erase_no_key m _), Memory.lookup_erase]
    split <;> rfl

/-- The image load leaves an index alone that no byte falls on (R34). -/
theorem Memory.read_loadImage_of_not_covered (bytes : List Byte) (m : Memory) (origin a : Nat)
    (h : ∀ i, i < bytes.length → (origin + i) % 65536 ≠ a % 65536) :
    Memory.read (Memory.loadImage m origin bytes) a = Memory.read m a := by
  induction bytes generalizing m origin with
  | nil => rfl
  | cons b bytes ih =>
    have hhead : a % 65536 ≠ origin % 65536 := (h 0 (by simp)).symm
    have htail : ∀ i, i < bytes.length → (origin + 1 + i) % 65536 ≠ a % 65536 := by
      intro i hi
      rw [Nat.add_assoc, Nat.add_comm 1 i]
      exact h (i + 1) (by simpa using hi)
    rw [Memory.loadImage_cons, ih _ _ htail, Memory.read_write, if_neg hhead]

/-- The image load places a byte that no later byte falls on (R34, D11). -/
theorem Memory.read_loadImage_of_last (bytes : List Byte) (m : Memory) (origin i : Nat) (hi : i < bytes.length)
    (hlast : ∀ j, i < j → j < bytes.length → (origin + j) % 65536 ≠ (origin + i) % 65536) :
    Memory.read (Memory.loadImage m origin bytes) (origin + i) = bytes.getD i 0 := by
  induction bytes generalizing m origin i with
  | nil => simp at hi
  | cons b bytes ih =>
    have shift : ∀ j, origin + 1 + j = origin + (j + 1) := by omega
    rw [Memory.loadImage_cons]
    cases i with
    | zero =>
      rw [Memory.read_loadImage_of_not_covered, Memory.read_write]
      · simp
      · intro j hj
        rw [shift]
        exact hlast (j + 1) (by omega) (by simpa using hj)
    | succ i =>
      rw [← shift i, ih _ _ _ (by simpa using hi), List.getD_cons_succ]
      intro j hij hj
      rw [shift, shift]
      exact hlast (j + 1) (by omega) (by simpa using hj)

/-- In an image that fits in memory no two bytes fall on one index. -/
theorem Memory.read_loadImage_of_fits (bytes : List Byte) (m : Memory) (origin i : Nat)
    (hfit : bytes.length ≤ 65536) (hi : i < bytes.length) :
    Memory.read (Memory.loadImage m origin bytes) (origin + i) = bytes.getD i 0 :=
  Memory.read_loadImage_of_last bytes m origin i hi (by omega)

end Sys2Proof.Machine

/-! SUPPORT. The statements of the state's family (10_state.md), settled. -/

namespace Sys2Proof.Machine

/-- Halting makes halt_info the pair (M[PC], PC) that the invariant asks of Halted (R20, R115). -/
theorem enterHalt_inv (s : State) (h : Memory.wf s.mem) : Inv (enterHalt s.opcodeByte s) :=
  ⟨h, fun hr => by simp at hr, fun _ => rfl⟩

/-- An instruction executed while Running keeps the invariant. -/
theorem effect_inv (i : Instr) (s : State) (hr : s.run = .running) (h : Inv s) : Inv (effect i s) := by
  obtain ⟨hmem, hnone, -⟩ := h
  exact ⟨effect_mem_wf i s hmem, fun _ => by rw [effect_haltInfo, hnone hr], fun hh => by simp [hr] at hh⟩

/-- Settles O34, by the three things a step can do. -/
theorem stepKeepsInvariant : Obligations.StepKeepsInvariant := by
  intro s t hinv hstep
  have ⟨hmem, _⟩ := hinv
  rcases step_cases s with ⟨-, hs⟩ | ⟨-, -, hs⟩ | ⟨i, hr, -, -, hs⟩ <;> rw [hs] at hstep
  · cases hstep
    exact hinv
  · cases hstep
    exact enterHalt_inv s hmem
  · rw [← (exec_eq_next_iff i s t).1 hstep]
    exact effect_inv i s hr hinv

/-- Settles O26: the updates of A, X and Y are register writes, which an instruction's effect commutes with, or
forgets where the register is a Load's target. -/
theorem registerAccessTable : Obligations.RegisterAccessTable := by
  intro i s t v h
  obtain rfl := (exec_eq_next_iff i s t).1 h
  have commutes : ∀ q : Reg, i.entry.reg ≠ q → (q = .x → ¬ Indexed i.entry.mode) →
      exec i (s.setReg q v) = .next ((effect i s).setReg q v) := fun q hq hx =>
    (exec_eq_next_iff i _ _).2 (effect_setReg_of_ne i s q v hq hx)
  have forgets : ∀ q : Reg, i.entry.kind = .load → i.entry.reg = q →
      exec i (s.setReg q v) = .next (effect i s) := fun q hk hq =>
    (exec_eq_next_iff i _ _).2 (hq ▸ effect_setReg_target_of_load i s v hk)
  exact ⟨fun ha => commutes .a ha (by simp), fun hy => commutes .y hy (by simp),
    fun hx hz hb => commutes .x hx fun _ hidx => hidx.elim hz hb, forgets .a, forgets .x, forgets .y⟩

/-- A step under any table ends in Halted exactly when it began there or fetched an unmapped byte (R19). -/
theorem stepWith_run_halted_iff (D : DispatchTable) (s t : State) (h : stepWith D s = .next t) :
    t.run = .halted ↔ s.run = .halted ∨ D s.opcodeByte = none := by
  rcases stepWith_cases D s t h with ⟨hr, rfl⟩ | ⟨-, hD, rfl⟩ | ⟨r, m, hr, hD, rfl⟩ | ⟨r, m, ea, hr, hD, -, rfl⟩
  · simp [hr]
  · simp [hD]
  · obtain ⟨v, hv⟩ := performLoad_eq r m s
    simp [hv, hr, hD]
  · simp [hr, hD]

/-- Settles O31: the reset value, the inversion of a table step, and that an instruction's effect commutes with any
change of run and halt_info. -/
theorem runStateTransitions : Obligations.RunStateTransitions := by
  refine ⟨State.resetWith_run, stepWith_run_halted_iff, fun i s t r info h => ?_⟩
  obtain rfl := (exec_eq_next_iff i s t).1 h
  refine ⟨effect_run i s, effect_haltInfo i s, (exec_eq_next_iff i _ _).2 ?_⟩
  rw [effect_control i s s.sp r info, ← effect_sp i s]

/-- A step leaves SP alone (R14). -/
theorem step_sp (s t : State) (h : step s = .next t) : t.sp = s.sp := by
  rcases step_cases s with ⟨-, hs⟩ | ⟨-, -, hs⟩ | ⟨i, -, -, -, hs⟩ <;> rw [hs] at h
  · cases h
    rfl
  · cases h
    rfl
  · rw [← (exec_eq_next_iff i s t).1 h, effect_sp]

/-- A step does the same whatever SP holds (R14): the fetch does not see SP, nor does any branch of the step. -/
theorem step_withSp (s t : State) (v : Addr) (h : step s = .next t) :
    step { s with sp := v } = .next { t with sp := v } := by
  have hfetch : fetchInstr { s with sp := v } = fetchInstr s := rfl
  rcases s.halted_or_running with hr | hr
  · rw [step_of_halted s hr] at h
    cases h
    exact step_of_halted { s with sp := v } hr
  · cases hf : fetchInstr s with
    | error e =>
      rw [step_of_fetch_error s e hr hf] at h
      cases h
      exact step_of_fetch_error { s with sp := v } e hr (hfetch.trans hf)
    | ok i =>
      rw [step_of_fetch_ok s i hr hf] at h
      cases h
      rw [step_of_fetch_ok { s with sp := v } i hr (hfetch.trans hf), effect_control i s v s.run s.haltInfo,
        ← effect_run i s, ← effect_haltInfo i s]

/-- Any number of steps leave SP alone. -/
theorem runSteps_sp (n : Nat) (s t : State) (h : runSteps n s = .next t) : t.sp = s.sp :=
  runSteps_induction (fun s t => t.sp = s.sp) (fun _ => rfl) (fun s t _ hst htu => htu.trans (step_sp s t hst)) n s t h

/-- Settles O36, by the step lemmas above and the induction over a run. -/
theorem spIsInert : Obligations.SpIsInert :=
  ⟨fun s t v h => ⟨step_sp s t h, step_withSp s t v h⟩, fun p n t h => runSteps_sp n (State.resetWith p) t h⟩

/-- After reset memory is canonical, and the loop is Running with no halt_info. -/
theorem resetWith_inv (p : Params) : Inv (State.resetWith p) :=
  ⟨resetWith_wf p, fun _ => State.resetWith_haltInfo p, fun hr => by simp at hr⟩

/-- Settles O35: State.reset is the reset state at the default parameters. -/
theorem resetHasInvariant : Obligations.ResetHasInvariant :=
  ⟨resetWith_inv, reset_eq_resetWith ▸ resetWith_inv { image := [] }⟩

/-- Settles O42: the registers by the fields of the reset state, memory by what a read sees after the image load into
zeroed memory. -/
theorem resetState : Obligations.ResetState := by
  refine ⟨fun p => ⟨rfl, rfl, rfl, rfl, rfl, rfl, rfl, fun hfit i hi => ?_, fun a ha => ?_, fun _ => rfl⟩,
    reset_eq_resetWith⟩
  · exact Memory.read_loadImage_of_fits p.image [] p.origin.toNat i hfit hi
  · exact Memory.read_loadImage_of_not_covered p.image [] p.origin.toNat a ha

end Sys2Proof.Machine

/-! SUPPORT. Which pairs a canonical memory lists, what a step leaves of memory, and what a step's transfers are. -/

namespace Sys2Proof.Machine

/-! ### The pairs of a canonical memory -/

/-- An index reads 0x00 unless the list has a pair for it. -/
theorem Memory.mem_of_lookup_ne_zero (m : Memory) (a : Nat) (h : Memory.lookup m a ≠ 0) :
    (a, Memory.lookup m a) ∈ m := by
  induction m with
  | nil => exact absurd rfl h
  | cons c m ih =>
    by_cases hc : c.1 = a
    · simp [Memory.lookup, ← hc]
    · have hl : Memory.lookup (c :: m) a = Memory.lookup m a := by simp [Memory.lookup, hc]
      rw [hl] at h ⊢
      exact List.mem_cons_of_mem c (ih h)

/-- In a list of rising addresses no earlier pair hides another. -/
theorem Memory.lookup_of_mem (m : Memory) (c : Host.Cell) (hm : m.Pairwise fun c d => c.1 < d.1) (hc : c ∈ m) :
    Memory.lookup m c.1 = c.2 := by
  induction m with
  | nil => simp at hc
  | cons d m ih =>
    obtain ⟨hd, hm⟩ := List.pairwise_cons.1 hm
    rcases List.mem_cons.1 hc with rfl | hc
    · simp [Memory.lookup]
    · rw [Memory.lookup, if_neg (hd c hc).ne, ih hm hc]

/-- A canonical memory lists exactly the indices that do not read 0x00, each with the byte it reads. -/
theorem Memory.mem_iff_read (m : Memory) (h : Memory.wf m) (c : Host.Cell) :
    c ∈ m ↔ c.1 < 65536 ∧ Memory.read m c.1 = c.2 ∧ c.2 ≠ 0 := by
  obtain ⟨hsorted, hcells⟩ := h
  constructor
  · intro hc
    obtain ⟨hlt, hne⟩ := hcells c hc
    exact ⟨hlt, by rw [Memory.read, Nat.mod_eq_of_lt hlt, Memory.lookup_of_mem m c hsorted hc], hne⟩
  · rintro ⟨hlt, hread, hne⟩
    rw [Memory.read, Nat.mod_eq_of_lt hlt] at hread
    have hmem := Memory.mem_of_lookup_ne_zero m c.1 (hread ▸ hne)
    rwa [hread] at hmem

/-! ### Memory along a step and a run -/

/-- An instruction changes no byte outside the zero page: a Load none, a Store one at an 8-bit address (R157). -/
theorem effect_memRead_above_zeroPage (i : Instr) (s : State) (a : Nat) (ha : 256 ≤ a % 65536) :
    (effect i s).memRead a = s.memRead a := by
  cases hk : i.entry.kind with
  | load => rw [effect_of_load i s hk, State.memRead, loadInto_mem, State.memRead]
  | store =>
    have hz := ((operandBytes i).headD 0).isLt
    rw [effect_of_store i s hk, State.memRead, storeTo_mem, Memory.read_write, eaZeroPage_toNat, if_neg (by omega),
      State.memRead]

theorem step_memRead_above_zeroPage (s t : State) (a : Nat) (h : step s = .next t) (ha : 256 ≤ a % 65536) :
    t.memRead a = s.memRead a := by
  rcases step_cases s with ⟨-, hs⟩ | ⟨-, -, hs⟩ | ⟨i, -, -, -, hs⟩ <;> rw [hs] at h
  · cases h
    rfl
  · cases h
    exact enterHalt_memRead s _ a
  · rw [← (exec_eq_next_iff i s t).1 h, effect_memRead_above_zeroPage i s a ha]

/-- A Store leaves its register's byte at its address (R100). -/
theorem storeTo_memRead_same (r : Reg) (m : Mode) (ea : Addr) (s : State) :
    (storeTo r m ea s).memRead ea.toNat = s.reg r := by
  rw [State.memRead, storeTo_mem, Memory.read_write, if_pos rfl]

/-! ### The step under a table and its transfers, one equation per branch -/

section
variable (D : DispatchTable) (s : State)

theorem busTransfers_of_halted (hr : s.run = .halted) : busTransfers D s = [] := by
  simp only [busTransfers, hr]

theorem busTransfers_of_unmapped (hr : s.run = .running) (hD : D s.opcodeByte = none) :
    busTransfers D s = [.read s.pc s.opcodeByte] := by
  simp only [busTransfers, hr, hD]

theorem busTransfers_of_mapped (e : Entry) (hr : s.run = .running) (hD : D s.opcodeByte = some e) :
    busTransfers D s = .read s.pc s.opcodeByte :: (operandTransfers e.mode s ++ dataTransfers e s) := by
  simp only [busTransfers, hr, hD]

theorem stepWith_of_halted (hr : s.run = .halted) : stepWith D s = .next s := by
  simp only [stepWith, hr]

theorem stepWith_of_unmapped (hr : s.run = .running) (hD : D s.opcodeByte = none) :
    stepWith D s = .next (enterHalt s.opcodeByte s) := by
  simp only [stepWith, hr, hD]

theorem stepWith_of_load (r : Reg) (m : Mode) (hr : s.run = .running) (hD : D s.opcodeByte = some ⟨.load, r, m⟩) :
    stepWith D s = .next (performLoad r m s) := by
  simp only [stepWith, hr, hD]

theorem stepWith_of_store (r : Reg) (m : Mode) (ea : Addr) (hr : s.run = .running)
    (hD : D s.opcodeByte = some ⟨.store, r, m⟩) (hea : resolve m s = .ea ea) :
    stepWith D s = .next (storeTo r m ea s) := by
  simp only [stepWith, hr, hD, performStore, hea]

end

section
variable (e : Entry) (r : Reg) (m : Mode) (v : Byte) (ea : Addr) (s : State)

theorem performLoad_of_value (h : resolve m s = .value v) : performLoad r m s = loadInto r m v s := by
  simp only [performLoad, h]

theorem performLoad_of_ea (h : resolve m s = .ea ea) :
    performLoad r m s = loadInto r m (s.memRead ea.toNat) s := by
  simp only [performLoad, h]
  rfl

@[simp] theorem performLoad_mem : (performLoad r m s).mem = s.mem := by
  obtain ⟨v, hv⟩ := performLoad_eq r m s
  rw [hv, loadInto_mem]

/-- The operand reads are one in the B2 modes, and two in the B3 modes (R52). -/
theorem operandTransfers_eq :
    operandTransfers m s = .read (s.pc + 1) s.operand1 ::
      (if m = .absolute ∨ m = .absoluteX then [.read (s.pc + 2) s.operand2] else []) := by
  cases m <;> rfl

theorem dataTransfers_of_value (h : resolve e.mode s = .value v) : dataTransfers e s = [] := by
  simp only [dataTransfers, h]

theorem dataTransfers_of_ea (h : resolve e.mode s = .ea ea) :
    dataTransfers e s =
      if e.kind = .load then [.read ea (s.memRead ea.toNat)] else [.write ea (s.reg e.reg)] := by
  cases hk : e.kind <;> simp [dataTransfers, h, hk]

theorem dataTransfers_length_le_one : (dataTransfers e s).length ≤ 1 := by
  cases h : resolve e.mode s with
  | value v => simp [dataTransfers_of_value e v s h]
  | ea ea =>
    rw [dataTransfers_of_ea e ea s h]
    split <;> simp

end

/-! ### What the reads of a list of transfers say of memory, and what its writes make of it -/

/-- Every read among the transfers gives the byte that `m` holds. -/
def ReadsFrom (m : Memory) (ts : List Transfer) : Prop :=
  ∀ addr v, Transfer.read addr v ∈ ts → Memory.read m addr.toNat = v

section
variable (m : Memory) (addr : Addr) (v : Byte) (ts us : List Transfer)

@[simp] theorem readsFrom_nil : ReadsFrom m [] := by simp [ReadsFrom]

@[simp] theorem readsFrom_cons_read :
    ReadsFrom m (.read addr v :: ts) ↔ Memory.read m addr.toNat = v ∧ ReadsFrom m ts := by
  simp [ReadsFrom, or_imp, forall_and]

@[simp] theorem readsFrom_cons_write : ReadsFrom m (.write addr v :: ts) ↔ ReadsFrom m ts := by
  simp [ReadsFrom]

@[simp] theorem readsFrom_append : ReadsFrom m (ts ++ us) ↔ ReadsFrom m ts ∧ ReadsFrom m us := by
  simp [ReadsFrom, or_imp, forall_and]

@[simp] theorem applyTransfers_nil : applyTransfers m [] = m := rfl

@[simp] theorem applyTransfers_cons_read : applyTransfers m (.read addr v :: ts) = applyTransfers m ts := rfl

@[simp] theorem applyTransfers_cons_write :
    applyTransfers m (.write addr v :: ts) = applyTransfers (Memory.write m addr.toNat v) ts := rfl

@[simp] theorem applyTransfers_append : applyTransfers m (ts ++ us) = applyTransfers (applyTransfers m ts) us :=
  List.foldl_append

end

section
variable (D : DispatchTable) (e : Entry) (s : State)

theorem operandTransfers_readsFrom (m : Mode) : ReadsFrom s.mem (operandTransfers m s) := by
  rw [operandTransfers_eq]
  split <;> simp [State.operand1, State.operand2, State.memRead]

theorem dataTransfers_readsFrom : ReadsFrom s.mem (dataTransfers e s) := by
  cases h : resolve e.mode s with
  | value v => simp [dataTransfers_of_value e v s h]
  | ea ea =>
    rw [dataTransfers_of_ea e ea s h]
    split <;> simp [State.memRead]

/-- Every read of a step gives the byte memory holds before the step. -/
theorem busTransfers_readsFrom : ReadsFrom s.mem (busTransfers D s) := by
  have hop : Memory.read s.mem s.pc.toNat = s.opcodeByte := rfl
  rcases s.halted_or_running with hr | hr
  · simp [busTransfers_of_halted D s hr]
  · cases hD : D s.opcodeByte with
    | none => simp [busTransfers_of_unmapped D s hr hD, hop]
    | some e =>
      simp [busTransfers_of_mapped D s e hr hD, hop, operandTransfers_readsFrom, dataTransfers_readsFrom]

@[simp] theorem applyTransfers_operandTransfers (mem : Memory) (m : Mode) :
    applyTransfers mem (operandTransfers m s) = mem := by
  rw [operandTransfers_eq]
  split <;> rfl

/-- Of a mapped opcode's transfers the data transfer alone can change memory. -/
theorem applyTransfers_busTransfers_of_mapped (hr : s.run = .running) (hD : D s.opcodeByte = some e) :
    applyTransfers s.mem (busTransfers D s) = applyTransfers s.mem (dataTransfers e s) := by
  simp [busTransfers_of_mapped D s e hr hD]

theorem applyTransfers_dataTransfers_of_load (h : e.kind = .load) :
    applyTransfers s.mem (dataTransfers e s) = s.mem := by
  cases hres : resolve e.mode s with
  | value v => rw [dataTransfers_of_value e v s hres, applyTransfers_nil]
  | ea ea => rw [dataTransfers_of_ea e ea s hres, if_pos h, applyTransfers_cons_read, applyTransfers_nil]

/-- The writes of a step account for its memory (R45). -/
theorem stepWith_mem (t : State) (h : stepWith D s = .next t) : t.mem = applyTransfers s.mem (busTransfers D s) := by
  rcases stepWith_cases D s t h with ⟨hr, rfl⟩ | ⟨hr, hD, rfl⟩ | ⟨r, m, hr, hD, rfl⟩ | ⟨r, m, ea, hr, hD, hea, rfl⟩
  · simp [busTransfers_of_halted D t hr]
  · simp [busTransfers_of_unmapped D s hr hD]
  · rw [applyTransfers_busTransfers_of_mapped D _ s hr hD, applyTransfers_dataTransfers_of_load _ s rfl,
      performLoad_mem]
  · rw [applyTransfers_busTransfers_of_mapped D _ s hr hD, dataTransfers_of_ea _ ea s hea, storeTo_mem]
    simp

end

/-! ### Replacing memory by one that agrees on the bytes read -/

section
variable (m : Memory) (s : State)

theorem reg_withMem (r : Reg) : State.reg { s with mem := m } r = s.reg r := by
  cases r <;> rfl

theorem operand1_withMem (mode : Mode) (h : ReadsFrom m (operandTransfers mode s)) :
    State.operand1 { s with mem := m } = s.operand1 := by
  rw [operandTransfers_eq, readsFrom_cons_read] at h
  exact h.1

theorem operand2_withMem (mode : Mode) (hmode : mode = .absolute ∨ mode = .absoluteX)
    (h : ReadsFrom m (operandTransfers mode s)) : State.operand2 { s with mem := m } = s.operand2 := by
  rw [operandTransfers_eq, if_pos hmode, readsFrom_cons_read, readsFrom_cons_read] at h
  exact h.2.1

theorem operandTransfers_withMem (mode : Mode) (h : ReadsFrom m (operandTransfers mode s)) :
    operandTransfers mode { s with mem := m } = operandTransfers mode s := by
  rw [operandTransfers_eq, operandTransfers_eq, operand1_withMem m s mode h]
  split
  · next hmode => rw [operand2_withMem m s mode hmode h]
  · rfl

/-- The second operand byte has no part in a mode of format B2 (R52). -/
theorem resolveBytes_of_format_b2 (mode : Mode) (b1 b2 c2 x : Byte) (h : ¬ (mode = .absolute ∨ mode = .absoluteX)) :
    resolveBytes mode b1 b2 x = resolveBytes mode b1 c2 x := by
  cases mode with
  | immediate | zeroPage | zeroPageX => rfl
  | absolute => exact absurd (.inl rfl) h
  | absoluteX => exact absurd (.inr rfl) h

theorem resolve_withMem (mode : Mode) (h : ReadsFrom m (operandTransfers mode s)) :
    resolve mode { s with mem := m } = resolve mode s := by
  rw [resolve, resolve, operand1_withMem m s mode h]
  by_cases hmode : mode = .absolute ∨ mode = .absoluteX
  · rw [operand2_withMem m s mode hmode h]
  · exact resolveBytes_of_format_b2 mode _ _ _ s.x hmode

theorem dataTransfers_withMem (e : Entry) (hres : resolve e.mode { s with mem := m } = resolve e.mode s)
    (h : ReadsFrom m (dataTransfers e s)) : dataTransfers e { s with mem := m } = dataTransfers e s := by
  cases hr : resolve e.mode s with
  | value v => rw [dataTransfers_of_value e v s hr, dataTransfers_of_value e v _ (hres.trans hr)]
  | ea ea =>
    rw [dataTransfers_of_ea e ea s hr] at h ⊢
    rw [dataTransfers_of_ea e ea _ (hres.trans hr)]
    by_cases hk : e.kind = .load
    · simp only [if_pos hk, readsFrom_cons_read] at h ⊢
      obtain ⟨hread, -⟩ := h
      rw [State.memRead, hread]
    · rw [if_neg hk, if_neg hk, reg_withMem]

theorem loadInto_withMem (r : Reg) (mode : Mode) (v : Byte) :
    loadInto r mode v { s with mem := m } = { loadInto r mode v s with mem := m } := by
  cases r <;> rfl

theorem storeTo_withMem (r : Reg) (mode : Mode) (ea : Addr) :
    storeTo r mode ea { s with mem := m } =
      { storeTo r mode ea s with mem := Memory.write m ea.toNat (s.reg r) } := by
  cases r <;> rfl

theorem performLoad_withMem (r : Reg) (mode : Mode) (hres : resolve mode { s with mem := m } = resolve mode s)
    (h : ReadsFrom m (dataTransfers ⟨.load, r, mode⟩ s)) :
    performLoad r mode { s with mem := m } = { performLoad r mode s with mem := m } := by
  cases hr : resolve mode s with
  | value v =>
    rw [performLoad_of_value r mode v s hr, performLoad_of_value r mode v _ (hres.trans hr), loadInto_withMem]
  | ea ea =>
    have hread : State.memRead { s with mem := m } ea.toNat = s.memRead ea.toNat := by
      rw [dataTransfers_of_ea _ ea s hr, if_pos rfl, readsFrom_cons_read] at h
      exact h.1
    rw [performLoad_of_ea r mode ea s hr, performLoad_of_ea r mode ea _ (hres.trans hr), hread, loadInto_withMem]

variable (D : DispatchTable)

theorem opcodeByte_withMem (hr : s.run = .running) (h : ReadsFrom m (busTransfers D s)) :
    State.opcodeByte { s with mem := m } = s.opcodeByte := by
  cases hD : D s.opcodeByte with
  | none =>
    rw [busTransfers_of_unmapped D s hr hD, readsFrom_cons_read] at h
    exact h.1
  | some e =>
    rw [busTransfers_of_mapped D s e hr hD, readsFrom_cons_read] at h
    exact h.1

/-- Over a memory that agrees on the bytes a mapped opcode's step reads, the operand reads, the resolver and the data
transfer are the same. -/
theorem mapped_withMem (e : Entry) (hr : s.run = .running) (hD : D s.opcodeByte = some e)
    (h : ReadsFrom m (busTransfers D s)) :
    operandTransfers e.mode { s with mem := m } = operandTransfers e.mode s ∧
      resolve e.mode { s with mem := m } = resolve e.mode s ∧ ReadsFrom m (dataTransfers e s) := by
  rw [busTransfers_of_mapped D s e hr hD, readsFrom_cons_read, readsFrom_append] at h
  obtain ⟨-, hops, hdata⟩ := h
  exact ⟨operandTransfers_withMem m s e.mode hops, resolve_withMem m s e.mode hops, hdata⟩

/-- A step's transfers depend on no byte of memory but those it reads (R45). -/
theorem busTransfers_withMem (h : ReadsFrom m (busTransfers D s)) :
    busTransfers D { s with mem := m } = busTransfers D s := by
  rcases s.halted_or_running with hr | hr
  · rw [busTransfers_of_halted D s hr, busTransfers_of_halted D { s with mem := m } hr]
  have hop := opcodeByte_withMem m s D hr h
  cases hD : D s.opcodeByte with
  | none =>
    rw [busTransfers_of_unmapped D s hr hD, busTransfers_of_unmapped D { s with mem := m } hr (hop.symm ▸ hD), hop]
  | some e =>
    obtain ⟨hops, hres, hdata⟩ := mapped_withMem m s D e hr hD h
    rw [busTransfers_of_mapped D s e hr hD, busTransfers_of_mapped D { s with mem := m } e hr (hop.symm ▸ hD), hop,
      hops, dataTransfers_withMem m s e hres hdata]

/-- A step's registers, run and halt_info depend on no byte of memory but those it reads (R45). -/
theorem stepWith_withMem (t : State) (h : ReadsFrom m (busTransfers D s)) (hstep : stepWith D s = .next t) :
    ∃ n : Memory, stepWith D { s with mem := m } = .next { t with mem := n } := by
  have hop := fun hr => opcodeByte_withMem m s D hr h
  rcases stepWith_cases D s t hstep with
    ⟨hr, rfl⟩ | ⟨hr, hD, rfl⟩ | ⟨r, mode, hr, hD, rfl⟩ | ⟨r, mode, ea, hr, hD, hea, rfl⟩
  · exact ⟨m, stepWith_of_halted D { t with mem := m } hr⟩
  · refine ⟨m, ?_⟩
    rw [stepWith_of_unmapped D { s with mem := m } hr ((hop hr).symm ▸ hD), hop hr]
    rfl
  · obtain ⟨-, hres, hdata⟩ := mapped_withMem m s D _ hr hD h
    refine ⟨m, ?_⟩
    rw [stepWith_of_load D { s with mem := m } r mode hr ((hop hr).symm ▸ hD),
      performLoad_withMem m s r mode hres hdata]
  · obtain ⟨-, hres, -⟩ := mapped_withMem m s D _ hr hD h
    refine ⟨Memory.write m ea.toNat (s.reg r), ?_⟩
    rw [stepWith_of_store D { s with mem := m } r mode ea hr ((hop hr).symm ▸ hD) (hres.trans hea), storeTo_withMem]

end

end Sys2Proof.Machine

/-! SUPPORT. The statements of the memory's family (20_memory.md), settled. -/

namespace Sys2Proof.Machine

/-- Settles O6: an address already reduced is its own residue. -/
theorem memoryWraparound : Obligations.MemoryWraparound :=
  ⟨fun m a => by rw [Memory.read, Memory.read, Nat.mod_mod],
    fun m a v => by rw [Memory.write, Memory.write, Nat.mod_mod]⟩

/-- Settles O7, by what a read sees after a write. -/
theorem writeSetsOneByte : Obligations.WriteSetsOneByte :=
  Memory.read_write

/-- Settles O8: a canonical memory lists the indices that do not read 0x00, in the one rising order. -/
theorem canonicalMemoryExtensional : Obligations.CanonicalMemoryExtensional := by
  intro m n hm hn hread
  have hmem (c : Host.Cell) : c ∈ m ↔ c ∈ n := by
    rw [Memory.mem_iff_read m hm, Memory.mem_iff_read n hn]
    exact and_congr_right fun hlt => by rw [hread c.1 hlt]
  have : Std.Antisymm fun c d : Host.Cell => c.1 < d.1 := ⟨fun _ _ hcd hdc => absurd hcd hdc.asymm⟩
  have : Std.Irrefl fun c d : Host.Cell => c.1 < d.1 := ⟨fun _ => lt_irrefl _⟩
  obtain ⟨hm, -⟩ := hm
  obtain ⟨hn, -⟩ := hn
  exact hm.eq_of_mem_iff hn hmem

/-- Settles O9, by what a read sees after an image load. -/
theorem loadImagePlacesBytes : Obligations.LoadImagePlacesBytes := fun m origin bytes =>
  ⟨Memory.read_loadImage_of_last bytes m origin, Memory.read_loadImage_of_not_covered bytes m origin⟩

/-- Settles O37, by the step lemma and the induction over a run. -/
theorem onlyZeroPageIsWritten : Obligations.OnlyZeroPageIsWritten := fun n s t a h ha =>
  runSteps_induction (fun s t => t.memRead a = s.memRead a) (fun _ => rfl)
    (fun s t _ hst htu => htu.trans (step_memRead_above_zeroPage s t a hst ha)) n s t h

/-- Settles O38: the opcode byte and the operand bytes of the next fetch are reads, and the Store's address reads the
stored byte. -/
theorem storeSeenByNextFetch : Obligations.StoreSeenByNextFetch := by
  intro i d8 s t hk hops h
  have hstored : t.memRead (eaZeroPage d8).toNat = s.reg i.entry.reg := by
    rw [← (exec_eq_next_iff i s t).1 h, effect_of_store i s hk, hops]
    exact storeTo_memRead_same i.entry.reg .zeroPage (eaZeroPage d8) s
  refine ⟨eaZeroPage_toNat d8 ▸ hstored, fun hpc => ?_, fun hpc => ?_, fun hpc => ?_⟩
  · rw [State.opcodeByte, hpc, hstored]
  · rw [State.operand1, hpc, hstored]
  · rw [State.operand2, hpc, hstored]

/-- Settles O46: one equation of the transfers for each branch of the step, and that the reads and writes of each part
account for memory. -/
theorem busTransfersMatchStep : Obligations.BusTransfersMatchStep := by
  intro D s t h
  refine ⟨stepWith_mem D s t h, fun addr v hv => (busTransfers_readsFrom D s addr v hv).symm,
    busTransfers_of_halted D s, busTransfers_of_unmapped D s, fun e hr hD =>
      ⟨dataTransfers e s, dataTransfers_length_le_one e s, ?_, fun himm => ?_, fun ea => dataTransfers_of_ea e ea s⟩⟩
  · rw [busTransfers_of_mapped D s e hr hD, operandTransfers_eq, operand1_eq, operand2_eq]
    rfl
  · exact dataTransfers_of_value e s.operand1 s (by rw [himm]; rfl)

/-- Settles O47, by the two lemmas over a memory that agrees on the bytes the step reads. -/
theorem stepLearnsOnlyWhatItReads : Obligations.StepLearnsOnlyWhatItReads := fun D s m t hreads h =>
  ⟨busTransfers_withMem m s D hreads, stepWith_withMem m s D t hreads h⟩

end Sys2Proof.Machine

/-! SUPPORT. What the decoder can answer on any byte list, and what a fetch sees after the host's placement. -/

namespace Sys2Proof

/-! ### The default table as a list -/

/-- What the table maps a byte to is one of its rows. -/
theorem mem_dispatchTable_of_dispatch (op : Byte) (e : Entry) (h : dispatch op = some e) :
    (op, e) ∈ dispatchTable := by
  obtain ⟨before, after, hsplit, -⟩ := List.lookup_eq_some_iff.1 h
  simp [hsplit]

theorem dispatch_eq_none_iff (op : Byte) : dispatch op = none ↔ op ∉ dispatchTable.map Prod.fst := by
  simp only [dispatch, List.lookup_eq_none_iff, bne_iff_ne, ne_eq, List.mem_map, not_exists, not_and, eq_comm (a := op)]

/-- Every row of the default table is a well-formed entry (R56 items 5 and 6). -/
theorem wf_of_dispatch (op : Byte) (e : Entry) (h : dispatch op = some e) : e.wf = true := by
  have hrows : ∀ row ∈ dispatchTable, row.2.wf = true := by decide
  exact hrows (op, e) (mem_dispatchTable_of_dispatch op e h)

theorem Entry.mode_of_wf_store (e : Entry) (h : e.wf = true) (hk : e.kind = .store) : e.mode = .zeroPage := by
  simpa [Entry.wf, hk] using h

/-! ### The decoder and the encoder -/

/-- The operand bytes an instruction was named by are its own, as many as its mode takes (R52). -/
theorem operandBytes_of_instrOf (i : Instr) (b1 b2 : Byte) (h : instrOf i.entry b1 b2 = some i) :
    operandBytes i = [b1, b2].take (i.entry.mode.len - 1) := by
  cases i <;> simp_all [instrOf, operandBytes, Instr.entry, Mode.len, Mode.format]

/-- A row of the default table always names an instruction: the row's own, with the operand bytes its mode takes. -/
theorem decodeAs_of_dispatch (op : Byte) (e : Entry) (b1 b2 : Byte) (rest : List Byte) (h : dispatch op = some e) :
    ∃ i, i.entry = e ∧ decodeAs e b1 b2 rest = .ok (i, rest) ∧
      operandBytes i = [b1, b2].take (e.mode.len - 1) := by
  obtain ⟨i, hi⟩ := instrOf_of_dispatch op e b1 b2 h
  obtain rfl := entry_of_instrOf e b1 b2 i hi
  exact ⟨i, rfl, by simp only [decodeAs, hi], operandBytes_of_instrOf i b1 b2 hi⟩

theorem decode_of_unmapped (op : Byte) (tail : List Byte) (h : dispatch op = none) :
    decode (op :: tail) = .error (.unmapped op) := by
  simp only [decode, h]

/-- What the decoder can answer: the byte is unmapped, or the list is too short for the entry's mode, or it begins with
the operand bytes of an instruction of the byte's entry (R58). -/
theorem decode_cons_cases (op : Byte) (tail : List Byte) :
    (dispatch op = none ∧ decode (op :: tail) = .error (.unmapped op)) ∨
      (∃ e, dispatch op = some e ∧ decode (op :: tail) = .error .truncated) ∨
        ∃ i rest, dispatch op = some i.entry ∧ tail = operandBytes i ++ rest ∧ decode (op :: tail) = .ok (i, rest) := by
  cases h : dispatch op with
  | none => exact .inl ⟨rfl, decode_of_unmapped op tail h⟩
  | some e =>
    right
    cases hf : e.mode.format with
    | b2 =>
      match tail with
      | [] => exact .inl ⟨e, rfl, by simp [decode, h, hf]⟩
      | b1 :: rest =>
        obtain ⟨i, rfl, hd, hops⟩ := decodeAs_of_dispatch op e b1 0 rest h
        exact .inr ⟨i, rest, rfl, by simp [hops, Mode.len, hf], by simpa [decode, h, hf] using hd⟩
    | b3 =>
      match tail with
      | [] | [_] => exact .inl ⟨e, rfl, by simp [decode, h, hf]⟩
      | b1 :: b2 :: rest =>
        obtain ⟨i, rfl, hd, hops⟩ := decodeAs_of_dispatch op e b1 b2 rest h
        exact .inr ⟨i, rest, rfl, by simp [hops, Mode.len, hf], by simpa [decode, h, hf] using hd⟩

theorem decode_encode (i : Instr) (rest : List Byte) : decode (encode i ++ rest) = .ok (i, rest) := by
  rw [encode, List.cons_append, decode, dispatch_opcode]
  cases i <;> rfl

/-- No two byte lists decode to one instruction with the same bytes left (R55: no two rows share an entry). -/
theorem eq_encode_append_of_decode (bytes rest : List Byte) (i : Instr) (h : decode bytes = .ok (i, rest)) :
    bytes = encode i ++ rest := by
  cases bytes with
  | nil => simp [decode] at h
  | cons op tail =>
    rcases decode_cons_cases op tail with ⟨-, hd⟩ | ⟨e, -, hd⟩ | ⟨j, left, hop, htail, hd⟩ <;> rw [hd] at h
    · cases h
    · cases h
    · cases h
      rw [encode, List.cons_append, ← opcode_of_dispatch op i hop, ← htail]

theorem decode_eq_unmapped_iff (op : Byte) (tail : List Byte) :
    decode (op :: tail) = .error (.unmapped op) ↔ dispatch op = none := by
  rcases decode_cons_cases op tail with ⟨hop, hd⟩ | ⟨e, hop, hd⟩ | ⟨i, rest, hop, -, hd⟩ <;> simp [hop, hd]

/-- An encoding is one opcode byte and the mode's operand bytes (R52). -/
theorem encode_length (i : Instr) : (encode i).length = i.entry.mode.len := by
  cases i <;> rfl

theorem decodeTableWord_eq_some_iff (nbits w : Nat) (i : Instr) :
    decodeTableWord nbits w = some i ↔ ∃ rest, decode (tableBytes nbits w) = .ok (i, rest) := by
  unfold decodeTableWord
  split <;> simp_all

end Sys2Proof

namespace Sys2Proof.Machine

theorem fetchInstr_of_decode (s : State) (i : Instr) (rest : List Byte) (h : decode s.fetchBytes = .ok (i, rest)) :
    fetchInstr s = .ok i := by
  simp only [fetchInstr, h]

/-- A read reduces its address (R31). -/
theorem State.memRead_mod (s : State) (addr : Nat) : s.memRead (addr % 65536) = s.memRead addr := by
  obtain ⟨hread, -⟩ := memoryWraparound
  exact (hread s.mem addr).symm

section
variable (s : State) (nbits w : Nat)

@[simp] theorem State.withFetchWord_run : (s.withFetchWord nbits w).run = .running := rfl
@[simp] theorem State.withFetchWord_pc : (s.withFetchWord nbits w).pc = s.pc := rfl
@[simp] theorem State.withFetchWord_mem :
    (s.withFetchWord nbits w).mem = Memory.loadImage s.mem s.pc.toNat (tableBytes nbits w) := rfl

/-- A placed byte is read at its place after PC: three bytes never cover one another, also where they wrap. -/
theorem State.withFetchWord_memRead (k : Nat) (hk : k < 3) :
    (s.withFetchWord nbits w).memRead (s.pc.toNat + k) = (tableBytes nbits w).getD k 0 := by
  rw [memRead, withFetchWord_mem]
  exact Memory.read_loadImage_of_fits (tableBytes nbits w) s.mem s.pc.toNat k (by simp [tableBytes]) hk

/-- The fetch after the placement sees the placed bytes, and no others (R111, R34). -/
theorem State.withFetchWord_fetchBytes : (s.withFetchWord nbits w).fetchBytes = tableBytes nbits w := by
  have hread := s.withFetchWord_memRead nbits w
  have hop := hread 0 (by omega)
  rw [Nat.add_zero] at hop
  simp only [fetchBytes, opcodeByte, operand1_eq, operand2_eq, memRead_mod, withFetchWord_pc, hop, hread 1 (by omega),
    hread 2 (by omega)]
  rfl

end

end Sys2Proof.Machine

/-! SUPPORT. The statements of the encoding's family (30_encoding.md), settled. -/

namespace Sys2Proof

/-- Settles O1: the encoder's opcode byte finds the instruction's row, and the decoder's row and operand bytes are
those of the instruction it answers. -/
theorem decodeEncodeInverse : Obligations.DecodeEncodeInverse :=
  ⟨fun i rest _ => decode_encode i rest, eq_encode_append_of_decode⟩

/-- Settles O5: what decodes is an encoding and the rest, and an encoding's length is LEN(mode). -/
theorem lengthFollowsMode : Obligations.LengthFollowsMode := by
  intro bytes rest i h
  rw [eq_encode_append_of_decode bytes rest i h, List.length_append, encode_length, Nat.add_comm]
  cases i.entry.mode <;> rfl

/-- Settles O2: the sixteen bytes are the table's in rising order, and only an unmapped byte is rejected by name. -/
theorem unmappedBytesRejected : Obligations.UnmappedBytesRejected := by
  refine ⟨fun op => ?_, fun op rest => (decode_eq_unmapped_iff op rest).symm⟩
  have hperm : (dispatchTable.map Prod.fst).Perm [0x84, 0x85, 0x86, 0xA0, 0xA2, 0xA4, 0xA5, 0xA6, 0xA9, 0xAC, 0xAD,
      0xAE, 0xB4, 0xB5, 0xBC, 0xBD] := by decide
  rw [dispatch_eq_none_iff, hperm.mem_iff]

/-- Settles O3: six of the byte lists are encodings; 0xFF has no row, and 0xAD wants a second operand byte. -/
theorem sampleBytesDecode : Obligations.SampleBytesDecode :=
  ⟨decode_encode (.ldaImm 0x42) [], decode_encode (.ldaZp 0x10) [], decode_encode (.ldaAbsX 0xFF 0x0B) [],
    decode_encode (.ldxAbs 0x00 0x20) [], decode_encode (.ldyZpX 0x80) [0x99], decode_encode (.staZp 0x10) [],
    decode_of_unmapped 0xFF [0x10] rfl, rfl⟩

/-- Settles O4: items 1 to 4, 7 and 8 by looking up a byte, the others by the rows being well formed. -/
theorem defaultTableMeetsSourceConstraints : Obligations.DefaultTableMeetsSourceConstraints := by
  refine ⟨⟨rfl, rfl, rfl, rfl, fun op => ?_, ⟨⟨0x85, rfl⟩, ⟨0x86, rfl⟩, ⟨0x84, rfl⟩, ⟨0xA4, rfl⟩⟩, ⟨0xB5, .inl rfl⟩⟩,
    fun op e h => e.mode_of_wf_store (wf_of_dispatch op e h)⟩
  exact (Option.all_eq_true _ _).2 (wf_of_dispatch op)

end Sys2Proof

namespace Sys2Proof.Machine

/-- Settles O48: the placed bytes are the ones fetched, so the decoder reads the same instruction from memory. -/
theorem placedWordRunsNext : Obligations.PlacedWordRunsNext := by
  intro s nbits w i h
  obtain ⟨rest, hd⟩ := (decodeTableWord_eq_some_iff nbits w i).1 h
  rw [← s.withFetchWord_fetchBytes nbits w] at hd
  rw [step_of_fetch_ok _ i (s.withFetchWord_run nbits w) (fetchInstr_of_decode _ i rest hd), exec_eq_effect]

end Sys2Proof.Machine

/-! SUPPORT. The resolver mode by mode, what it depends on, and a Load at a resolved address. -/

namespace Sys2Proof.Machine

/-! ### The resolver, one equation per mode -/

section
variable (s : State)

theorem resolve_immediate : resolve .immediate s = .value s.operand1 := rfl
theorem resolve_zeroPage : resolve .zeroPage s = .ea (eaZeroPage s.operand1) := rfl
theorem resolve_zeroPageX : resolve .zeroPageX s = .ea (eaZeroPageX s.operand1 s.x) := rfl
theorem resolve_absolute : resolve .absolute s = .ea (eaAbsolute s.operand1 s.operand2) := rfl
theorem resolve_absoluteX : resolve .absoluteX s = .ea (eaAbsoluteX s.operand1 s.operand2 s.x) := rfl

end

/-! ### What the resolver depends on -/

/-- Where X is no index, the resolver does not read it (R79). -/
theorem resolve_setReg_x_of_not_indexed (m : Mode) (s : State) (v : Byte) (h : ¬ Indexed m) :
    resolve m (s.setReg .x v) = resolve m s :=
  resolveBytes_of_not_indexed m s.operand1 s.operand2 v s.x h

/-- The second operand byte counts in the B3 modes alone, X in the indexed modes alone (R70). -/
theorem resolveBytes_congr (m : Mode) (b1 b2 c2 x y : Byte) (hb2 : m = .absolute ∨ m = .absoluteX → b2 = c2)
    (hx : Indexed m → x = y) : resolveBytes m b1 b2 x = resolveBytes m b1 c2 y := by
  have hsecond : resolveBytes m b1 b2 x = resolveBytes m b1 c2 x := by
    by_cases h : m = .absolute ∨ m = .absoluteX
    · rw [hb2 h]
    · exact resolveBytes_of_format_b2 m b1 b2 c2 x h
  have hindex : resolveBytes m b1 c2 x = resolveBytes m b1 c2 y := by
    by_cases h : Indexed m
    · rw [hx h]
    · exact resolveBytes_of_not_indexed m b1 c2 x y h
  exact hsecond.trans hindex

/-! ### A Load at a resolved address -/

/-- A Load brings its datum to the target and leaves the other registers (R81). -/
theorem loadInto_reg (r q : Reg) (m : Mode) (v : Byte) (s : State) :
    (loadInto r m v s).reg q = if q = r then v else s.reg q := by
  rw [loadInto, State.advance_reg, State.reg_setReg]

/-- In a memory mode the target gets the byte at the address resolved in the state before the step, also where the
target is the index (R77, D24). -/
theorem stepWith_load_of_ea (D : DispatchTable) (s : State) (r : Reg) (m : Mode) (ea : Addr) (hr : s.run = .running)
    (hD : D s.opcodeByte = some ⟨.load, r, m⟩) (hea : resolve m s = .ea ea) :
    ∃ t, stepWith D s = .next t ∧ t.reg r = s.memRead ea.toNat :=
  ⟨performLoad r m s, stepWith_of_load D s r m hr hD, by rw [performLoad_of_ea r m ea s hea, loadInto_reg, if_pos rfl]⟩

end Sys2Proof.Machine

/-! SUPPORT. The statements of the addressing family (40_addressing.md), settled. -/

namespace Sys2Proof.Machine

/-- Settles O10, by the addresses as numbers and by X being no index in the three modes. -/
theorem resolveUnindexedModes : Obligations.ResolveUnindexedModes := by
  intro s
  obtain ⟨-, hzp⟩ := BitVec.toNat_eq_nat.1 (eaZeroPage_toNat s.operand1)
  obtain ⟨-, habs⟩ := BitVec.toNat_eq_nat.1 (eaAbsolute_toNat s.operand1 s.operand2)
  simp only [← operand1_eq, ← operand2_eq]
  refine ⟨resolve_immediate s, fun _ => rfl, ?_, ?_, fun v => ⟨?_, ?_, ?_⟩⟩
  · rw [resolve_zeroPage, hzp]
  · rw [resolve_absolute, habs]
  · exact resolve_setReg_x_of_not_indexed .immediate s v (by simp [Indexed])
  · exact resolve_setReg_x_of_not_indexed .zeroPage s v (by simp [Indexed])
  · exact resolve_setReg_x_of_not_indexed .absolute s v (by simp [Indexed])

/-- Settles O11: the address is the sum mod 256, which no carrying sum equals. -/
theorem resolveZeroPageX : Obligations.ResolveZeroPageX := by
  intro s
  have hsum := eaZeroPageX_toNat s.operand1 s.x
  obtain ⟨-, hea⟩ := BitVec.toNat_eq_nat.1 hsum
  rw [← operand1_eq, resolve_zeroPageX]
  refine ⟨congrArg Resolved.ea hea, fun ea h => ?_⟩
  obtain rfl := Resolved.ea.inj h
  omega

/-- Settles O12, by the address as a number. -/
theorem resolveAbsoluteX : Obligations.ResolveAbsoluteX := by
  intro s
  obtain ⟨-, hea⟩ := BitVec.toNat_eq_nat.1 (eaAbsoluteX_toNat s.operand1 s.operand2 s.x)
  rw [← operand1_eq, ← operand2_eq, resolve_absoluteX, hea]

/-- Settles O13: the resolver reads the state through its operand bytes and X alone. -/
theorem resolverReadsOnlyItsInputs : Obligations.ResolverReadsOnlyItsInputs := by
  intro m s t _ hb1 hb2 hx
  rw [← operand1_eq, ← operand1_eq] at hb1
  rw [← operand2_eq, ← operand2_eq] at hb2
  rw [resolve, resolve, hb1]
  exact resolveBytes_congr m t.operand1 s.operand2 t.operand2 s.x t.x hb2 hx

/-- Settles O16: the address is resolved before the Load writes X. -/
theorem indexedLoadXUsesOldX : Obligations.IndexedLoadXUsesOldX := by
  intro D s hr
  simp only [← operand1_eq, ← operand2_eq, ← eaZeroPageX_toNat, ← eaAbsoluteX_toNat]
  exact ⟨fun hD => stepWith_load_of_ea D s .x .zeroPageX _ hr hD (resolve_zeroPageX s),
    fun hD => stepWith_load_of_ea D s .x .absoluteX _ hr hD (resolve_absoluteX s)⟩

end Sys2Proof.Machine

/-! SUPPORT. A Load's next state field by field, its datum in each mode, and the step at a two-byte instruction. -/

namespace Sys2Proof.Machine

/-! ### The Load step under a table -/

/-- The byte a Load takes from what its mode resolves to: the value, or the byte at the address (R81). -/
def Resolved.datum (ρ : Resolved) (s : State) : Byte :=
  match ρ with
  | .value v => v
  | .ea addr => s.memRead addr.toNat

theorem performLoad_eq_loadInto_datum (r : Reg) (m : Mode) (s : State) :
    performLoad r m s = loadInto r m ((resolve m s).datum s) s := by
  cases h : resolve m s with
  | value v => exact performLoad_of_value r m v s h
  | ea addr => exact performLoad_of_ea r m addr s h

theorem loadInto_pc_toNat (r : Reg) (m : Mode) (v : Byte) (s : State) :
    (loadInto r m v s).pc.toNat = (s.pc.toNat + m.len) % 65536 := by
  rw [loadInto, State.advance_pc, State.setReg_pc, pc_add_eq, BitVec.toNat_ofNat, Nat.mod_mod]

@[simp] theorem loadInto_memRead (r : Reg) (m : Mode) (v : Byte) (s : State) (addr : Nat) :
    (loadInto r m v s).memRead addr = s.memRead addr := by
  rw [State.memRead_def, loadInto_mem, State.memRead_def]

/-- A step from Running that answers a next state emits its record (R118). -/
theorem emitted_of_running (s t : State) (hr : s.run = .running) : emitted s (.next t) = some t.traceRecord := by
  simp only [emitted, hr]

/-! ### The datum of a Load instruction, mode by mode -/

section
variable (i : Instr) (s : State)

theorem loadDatum_of_immediate (h : i.entry.mode = .immediate) : loadDatum i s = (operandBytes i).getD 0 0 := by
  simp only [loadDatum, h, resolveBytes]

theorem loadDatum_of_zeroPage (h : i.entry.mode = .zeroPage) :
    loadDatum i s = s.memRead ((operandBytes i).getD 0 0).toNat := by
  simp only [loadDatum, h, resolveBytes, eaZeroPage_toNat]

theorem loadDatum_of_zeroPageX (h : i.entry.mode = .zeroPageX) :
    loadDatum i s = s.memRead ((((operandBytes i).getD 0 0).toNat + s.x.toNat) % 256) := by
  simp only [loadDatum, h, resolveBytes, eaZeroPageX_toNat]

theorem loadDatum_of_absolute (h : i.entry.mode = .absolute) :
    loadDatum i s = s.memRead (((operandBytes i).getD 1 0).toNat * 256 + ((operandBytes i).getD 0 0).toNat) := by
  simp only [loadDatum, h, resolveBytes, eaAbsolute_toNat]

theorem loadDatum_of_absoluteX (h : i.entry.mode = .absoluteX) :
    loadDatum i s = s.memRead
      ((((operandBytes i).getD 1 0).toNat * 256 + ((operandBytes i).getD 0 0).toNat + s.x.toNat) % 65536) := by
  simp only [loadDatum, h, resolveBytes, eaAbsoluteX_toNat]

/-- The whole effect of a Load instruction on the state: its datum in its target, and PC advanced (R81). -/
theorem exec_eq_of_loadDatum (v : Byte) (hk : i.entry.kind = .load) (hv : loadDatum i s = v) :
    exec i s = .next { s.setReg i.entry.reg v with
      pc := BitVec.ofNat 16 ((s.pc.toNat + i.entry.mode.len) % 65536) } := by
  rw [exec_eq_effect, effect_of_load i s hk, hv, loadInto_eq, pc_add_eq]

/-! ### The step at a two-byte instruction -/

/-- A two-byte instruction at PC is the one the step runs, whatever the third byte (R111, R112). -/
theorem step_eq_exec_of_two_bytes (hr : s.run = .running) (hop : s.opcodeByte = opcode i)
    (hops : operandBytes i = [s.operand1]) : step s = exec i s := by
  have hbytes : s.fetchBytes = encode i ++ [s.operand2] := by
    rw [State.fetchBytes, encode, hop, hops, List.cons_append, List.singleton_append]
  have hdecode : decode s.fetchBytes = .ok (i, [s.operand2]) := by rw [hbytes, decode_encode]
  rw [step_of_fetch_ok s i hr (fetchInstr_of_decode s i _ hdecode), exec_eq_effect]

end

end Sys2Proof.Machine

/-! SUPPORT. The statements of the Load family (41_load.md), settled. -/

namespace Sys2Proof.Machine

/-- Settles O14: under any table the step is a Load's end with the resolved datum. -/
theorem loadOperation : Obligations.LoadOperation := by
  intro D s r m hr hD
  have hstep := stepWith_of_load D s r m hr hD
  rw [performLoad_eq_loadInto_datum] at hstep
  refine ⟨_, hstep, fun q => loadInto_reg r q m _ s, loadInto_pc_toNat r m _ s, loadInto_sp r m _ s,
    loadInto_run r m _ s, loadInto_haltInfo r m _ s, loadInto_mem r m _ s, ?_⟩
  rw [hstep, emitted_of_running s _ hr, State.traceRecord]

/-- Settles O24: whatever byte a Load brings, its end writes the target and PC alone. -/
theorem loadFrame : Obligations.LoadFrame := by
  intro i s t hk h
  obtain ⟨v, hv⟩ := exec_of_load i s hk
  rw [hv] at h
  cases h
  exact ⟨fun q hq => by rw [loadInto_reg, if_neg hq], loadInto_sp _ _ v s, loadInto_run _ _ v s,
    loadInto_haltInfo _ _ v s, loadInto_memRead _ _ v s⟩

/-- The meaning of LDA #d8 (R82). -/
theorem exec_ldaImm (d8 : Byte) (s : State) :
    exec (.ldaImm d8) s = .next { s with a := d8, pc := BitVec.ofNat 16 ((s.pc.toNat + 2) % 65536) } :=
  exec_eq_of_loadDatum (.ldaImm d8) s d8 rfl (loadDatum_of_immediate _ s rfl)

/-- The meaning of LDA d8 (R83). -/
theorem exec_ldaZp (d8 : Byte) (s : State) :
    exec (.ldaZp d8) s =
      .next { s with a := s.memRead d8.toNat, pc := BitVec.ofNat 16 ((s.pc.toNat + 2) % 65536) } :=
  exec_eq_of_loadDatum (.ldaZp d8) s _ rfl (loadDatum_of_zeroPage _ s rfl)

/-- Settles O17: the step at 0xA9 runs LDA with the byte after PC as its value. -/
theorem ldaImmediate : Obligations.LdaImmediate := by
  refine ⟨fun d8 rest => ⟨rfl, decode_encode (.ldaImm d8) rest⟩, exec_ldaImm, fun s hr hop => ?_⟩
  rw [← operand1_eq, step_eq_exec_of_two_bytes (.ldaImm s.operand1) s hr hop rfl, exec_ldaImm]

/-- Settles O18: the step at 0xA5 runs LDA with the byte after PC as its zero-page address. -/
theorem ldaZeroPage : Obligations.LdaZeroPage := by
  refine ⟨fun d8 rest => ⟨rfl, decode_encode (.ldaZp d8) rest⟩, exec_ldaZp, fun s hr hop => ?_⟩
  rw [← operand1_eq, step_eq_exec_of_two_bytes (.ldaZp s.operand1) s hr hop rfl, exec_ldaZp]

/-- Settles O20: each meaning is the Load of its mode's datum, and the bytes are the encodings. -/
theorem ldaIndexedAndAbsolute : Obligations.LdaIndexedAndAbsolute :=
  ⟨fun d8 => decode_encode (.ldaZpX d8),
    fun lo hi rest => ⟨decode_encode (.ldaAbs lo hi) rest, decode_encode (.ldaAbsX lo hi) rest⟩,
    fun d8 s => exec_eq_of_loadDatum (.ldaZpX d8) s _ rfl (loadDatum_of_zeroPageX _ s rfl),
    fun lo hi s => exec_eq_of_loadDatum (.ldaAbs lo hi) s _ rfl (loadDatum_of_absolute _ s rfl),
    fun lo hi s => exec_eq_of_loadDatum (.ldaAbsX lo hi) s _ rfl (loadDatum_of_absoluteX _ s rfl)⟩

/-- Settles O21: as for LDA, with X the target and no index. -/
theorem ldxAllModes : Obligations.LdxAllModes :=
  ⟨fun d8 rest => ⟨decode_encode (.ldxImm d8) rest, decode_encode (.ldxZp d8) rest⟩,
    fun lo hi => decode_encode (.ldxAbs lo hi),
    fun d8 s => exec_eq_of_loadDatum (.ldxImm d8) s d8 rfl (loadDatum_of_immediate _ s rfl),
    fun d8 s => exec_eq_of_loadDatum (.ldxZp d8) s _ rfl (loadDatum_of_zeroPage _ s rfl),
    fun lo hi s => exec_eq_of_loadDatum (.ldxAbs lo hi) s _ rfl (loadDatum_of_absolute _ s rfl)⟩

/-- Settles O22: as for LDA, with Y the target and X the index. -/
theorem ldyAllModes : Obligations.LdyAllModes :=
  ⟨fun d8 rest => ⟨decode_encode (.ldyImm d8) rest, decode_encode (.ldyZp d8) rest,
      decode_encode (.ldyZpX d8) rest⟩,
    fun lo hi rest => ⟨decode_encode (.ldyAbs lo hi) rest, decode_encode (.ldyAbsX lo hi) rest⟩,
    fun d8 s => exec_eq_of_loadDatum (.ldyImm d8) s d8 rfl (loadDatum_of_immediate _ s rfl),
    fun d8 s => exec_eq_of_loadDatum (.ldyZp d8) s _ rfl (loadDatum_of_zeroPage _ s rfl),
    fun d8 s => exec_eq_of_loadDatum (.ldyZpX d8) s _ rfl (loadDatum_of_zeroPageX _ s rfl),
    fun lo hi s => exec_eq_of_loadDatum (.ldyAbs lo hi) s _ rfl (loadDatum_of_absolute _ s rfl),
    fun lo hi s => exec_eq_of_loadDatum (.ldyAbsX lo hi) s _ rfl (loadDatum_of_absoluteX _ s rfl)⟩

end Sys2Proof.Machine

/-! SUPPORT. A Store's next state field by field, and the two steps of a Store and the Load after it. -/

namespace Sys2Proof.Machine

/-! ### The state after a Store -/

section
variable (r : Reg) (m : Mode) (ea : Addr) (s : State)

@[simp] theorem storeTo_reg (q : Reg) : (storeTo r m ea s).reg q = s.reg q := by
  rw [storeTo, State.advance_reg, State.memWrite_reg]

theorem storeTo_pc_toNat : (storeTo r m ea s).pc.toNat = (s.pc.toNat + m.len) % 65536 := by
  rw [storeTo, State.advance_pc, State.memWrite_pc, pc_add_eq, BitVec.toNat_ofNat, Nat.mod_mod]

/-- A Store is seen at its address and nowhere else (R100, R32). -/
theorem storeTo_memRead (addr : Nat) :
    (storeTo r m ea s).memRead addr = if addr % 65536 = ea.toNat then s.reg r else s.memRead addr := by
  rw [State.memRead_def, storeTo_mem, Memory.read_write, Nat.mod_eq_of_lt ea.isLt, State.memRead_def]

theorem storeTo_memRead_of_ne (addr : Nat) (h : addr % 65536 ≠ ea.toNat) :
    (storeTo r m ea s).memRead addr = s.memRead addr := by
  rw [storeTo_memRead, if_neg h]

end

/-- The whole effect of a Store instruction on the state: its register's byte at its operand byte as an address, and PC
advanced by 2 (R100). -/
theorem exec_eq_of_store (i : Instr) (s : State) (hk : i.entry.kind = .store) :
    exec i s = .next { s with
      mem := Memory.write s.mem ((operandBytes i).headD 0).toNat (s.reg i.entry.reg)
      pc := BitVec.ofNat 16 ((s.pc.toNat + 2) % 65536) } := by
  rw [exec_of_store i s hk, storeTo_eq, eaZeroPage_toNat, pc_add_eq]
  rfl

/-! ### A Store to the zero page, and the instruction after it -/

section
variable (D : DispatchTable) (s : State) (r q : Reg)

theorem stepWith_store_zeroPage (hr : s.run = .running) (hD : D s.opcodeByte = some ⟨.store, r, .zeroPage⟩) :
    stepWith D s = .next (storeTo r .zeroPage (eaZeroPage s.operand1) s) :=
  stepWith_of_store D s r .zeroPage _ hr hD (resolve_zeroPage s)

theorem stepWith_load_zeroPage (hr : s.run = .running) (hD : D s.opcodeByte = some ⟨.load, r, .zeroPage⟩) :
    stepWith D s = .next (loadInto r .zeroPage (s.memRead s.operand1.toNat) s) := by
  rw [stepWith_of_load D s r .zeroPage hr hD, performLoad_of_ea _ _ _ s (resolve_zeroPage s), eaZeroPage_toNat]

theorem storeTo_zeroPage_pc_toNat (ea : Addr) :
    (storeTo r .zeroPage ea s).pc.toNat = (s.pc.toNat + 2) % 65536 :=
  storeTo_pc_toNat r .zeroPage ea s

/-- The opcode byte after a Store is the one that stood two bytes on, unless the Store hit it (R44, D18). -/
theorem storeTo_opcodeByte_of_ne (ea : Addr) (h : ea.toNat ≠ (s.pc.toNat + 2) % 65536) :
    (storeTo r .zeroPage ea s).opcodeByte = s.memRead ((s.pc.toNat + 2) % 65536) := by
  rw [State.opcodeByte, storeTo_zeroPage_pc_toNat, storeTo_memRead_of_ne _ _ _ s _ (by omega)]

/-- The operand byte after a Store is the one that stood three bytes on, or the byte stored there (R44, D18). -/
theorem storeTo_operand1 (ea : Addr) :
    (storeTo r .zeroPage ea s).operand1 =
      if (s.pc.toNat + 3) % 65536 = ea.toNat then s.reg r else s.memRead ((s.pc.toNat + 3) % 65536) := by
  have hnext : ((s.pc.toNat + 2) % 65536 + 1) % 65536 = (s.pc.toNat + 3) % 65536 := by omega
  rw [operand1_eq, storeTo_zeroPage_pc_toNat, hnext, storeTo_memRead, Nat.mod_mod]

/-- A Store that spares the next opcode byte is followed by the Load that stood there, run on the memory the Store left
(R104). -/
theorem stepWith_store_then_load (hr : s.run = .running) (hstore : D s.opcodeByte = some ⟨.store, r, .zeroPage⟩)
    (hload : D (s.memRead ((s.pc.toNat + 2) % 65536)) = some ⟨.load, q, .zeroPage⟩)
    (hne : s.operand1.toNat ≠ (s.pc.toNat + 2) % 65536) :
    ∃ t, t = storeTo r .zeroPage (eaZeroPage s.operand1) s ∧ stepWith D s = .next t ∧
      stepWith D t = .next (loadInto q .zeroPage (t.memRead t.operand1.toNat) t) := by
  refine ⟨_, rfl, stepWith_store_zeroPage D s r hr hstore, stepWith_load_zeroPage D _ q ?_ ?_⟩
  · rw [storeTo_run, hr]
  · rw [storeTo_opcodeByte_of_ne s r _ (by rwa [eaZeroPage_toNat]), hload]

end

end Sys2Proof.Machine

/-! SUPPORT. The statements of the Store family (42_store.md), settled. -/

namespace Sys2Proof.Machine

/-- Settles O15: under any table the step is a Store at the operand byte as an address, and R56 item 6 leaves no Store
another mode. -/
theorem storeOperation : Obligations.StoreOperation := by
  refine ⟨fun D s r hr hD => ?_, fun D op r hD himm => ?_⟩
  · have hstep := stepWith_store_zeroPage D s r hr hD
    rw [← operand1_eq, ← eaZeroPage_toNat]
    refine ⟨_, hstep, storeTo_memRead r _ _ s, storeTo_reg r _ _ s, storeTo_pc_toNat r _ _ s, storeTo_sp r _ _ s,
      storeTo_run r _ _ s, storeTo_haltInfo r _ _ s, ?_⟩
    rw [hstep, emitted_of_running s _ hr, State.traceRecord]
  · obtain ⟨-, -, -, -, hwf, -⟩ := hD
    have hentry : Entry.wf ⟨.store, r, .immediate⟩ = true := by simpa only [himm, Option.all_some] using hwf op
    exact absurd (Entry.mode_of_wf_store _ hentry rfl) (by simp)

/-- Settles O25: a Store instruction is a Store at its operand byte as an address, which writes one byte and PC. -/
theorem storeFrame : Obligations.StoreFrame := by
  intro i d8 s t hk hops h
  rw [exec_of_store i s hk, hops] at h
  cases h
  exact ⟨storeTo_reg _ _ _ s, storeTo_sp _ _ _ s, storeTo_run _ _ _ s, storeTo_haltInfo _ _ _ s,
    storeTo_memRead_of_ne _ _ _ s⟩

/-- Settles O39: the Load runs on the memory the Store left, with its operand byte untouched in the first clause and the
stored byte in the second. -/
theorem storeThenLoadRoundTrip : Obligations.StoreThenLoadRoundTrip := by
  intro D s z hr hstore hz hload
  rw [← operand1_eq] at hz
  subst hz
  have hea := eaZeroPage_toNat s.operand1
  refine ⟨fun hoperand hop hopd => ?_, fun hopd => ?_⟩
  · obtain ⟨t, ht, hst, htu⟩ := stepWith_store_then_load D s .a .y hr hstore hload hop
    have hdatum : t.memRead s.operand1.toNat = s.a := by
      rw [ht, ← hea, storeTo_memRead_same, State.reg_a]
    have htop : t.operand1 = s.operand1 := by rw [ht, storeTo_operand1, if_neg (by omega), hoperand]
    rw [htop, hdatum] at htu
    refine ⟨t, _, hst, htu, ?_, ?_, ?_, ?_⟩
    · exact loadInto_reg .y .y .zeroPage s.a t
    · rw [← State.reg_a, loadInto_reg, if_neg (by decide), ht, storeTo_reg, State.reg_a]
    · rw [loadInto_memRead, hdatum]
    · rw [loadInto_pc_toNat, ht, storeTo_zeroPage_pc_toNat]
      exact Nat.mod_add_mod (s.pc.toNat + 2) 65536 2
  · have hlt := s.operand1.isLt
    obtain ⟨t, ht, hst, htu⟩ := stepWith_store_then_load D s .a .y hr hstore hload (by omega)
    have htop : t.operand1 = s.a := by rw [ht, storeTo_operand1, if_pos (by omega), State.reg_a]
    rw [htop] at htu
    exact ⟨t, _, hst, htu, loadInto_reg .y .y .zeroPage _ t⟩

/-- Settles O19: the step at 0x85 runs STA with the byte after PC as its zero-page address. -/
theorem staZeroPage : Obligations.StaZeroPage := by
  refine ⟨fun d8 rest => ⟨rfl, decode_encode (.staZp d8) rest⟩, fun d8 s => exec_eq_of_store (.staZp d8) s rfl,
    fun s hr hop => ?_⟩
  rw [← operand1_eq, step_eq_exec_of_two_bytes (.staZp s.operand1) s hr hop rfl]
  exact exec_eq_of_store (.staZp s.operand1) s rfl

/-- Settles O23: as for STA, with X or Y the register stored. -/
theorem stxAndSty : Obligations.StxAndSty :=
  ⟨fun d8 rest => ⟨decode_encode (.stxZp d8) rest, decode_encode (.styZp d8) rest⟩,
    fun d8 s => exec_eq_of_store (.stxZp d8) s rfl, fun d8 s => exec_eq_of_store (.styZp d8) s rfl⟩

end Sys2Proof.Machine

/-! SUPPORT. What a mapped opcode does by its entry alone, where a step leaves PC, and what a run and its trace are. -/

namespace Sys2Proof

theorem Mode.len_eq_two_or_three (m : Mode) : m.len = 2 ∨ m.len = 3 := by
  cases m <;> decide

theorem wf_of_meetsR56 (D : DispatchTable) (hD : MeetsR56 D) (op : Byte) (e : Entry) (h : D op = some e) :
    e.wf = true := by
  obtain ⟨-, -, -, -, hwf, -⟩ := hD
  exact (Option.all_eq_true _ _).1 (hwf op) e h

end Sys2Proof

namespace Sys2Proof.Machine

/-! ### The step by the entry of its opcode byte -/

/-- What an admissible entry makes of the state: a Load of what its mode resolves to (R81), or a Store at the operand
byte as a zero-page address (R100; R56 item 6). -/
def entryEffect (e : Entry) (s : State) : State :=
  match e.kind with
  | .load => performLoad e.reg e.mode s
  | .store => storeTo e.reg .zeroPage (eaZeroPage s.operand1) s

section
variable (D : DispatchTable) (s t : State) (e : Entry) (i : Instr)

theorem entryEffect_of_load (hk : e.kind = .load) : entryEffect e s = performLoad e.reg e.mode s := by
  simp only [entryEffect, hk]

theorem entryEffect_of_store (hk : e.kind = .store) :
    entryEffect e s = storeTo e.reg .zeroPage (eaZeroPage s.operand1) s := by
  simp only [entryEffect, hk]

theorem stepWith_of_wf_entry (hr : s.run = .running) (hD : D s.opcodeByte = some e) (hwf : e.wf = true) :
    stepWith D s = .next (entryEffect e s) := by
  obtain ⟨k, r, m⟩ := e
  cases k with
  | load => exact stepWith_of_load D s r m hr hD
  | store =>
    obtain rfl : m = .zeroPage := Entry.mode_of_wf_store _ hwf rfl
    exact stepWith_store_zeroPage D s r hr hD

/-- The only stop of a step under a table is at an entry that R56 forbids (R132; log entry 8). -/
theorem stepWith_completes (hwf : ∀ e, D s.opcodeByte = some e → e.wf = true) : Completes (stepWith D s) := by
  rcases s.halted_or_running with hr | hr
  · exact ⟨s, stepWith_of_halted D s hr⟩
  · cases hD : D s.opcodeByte with
    | none => exact ⟨_, stepWith_of_unmapped D s hr hD⟩
    | some e => exact ⟨_, stepWith_of_wf_entry D s e hr hD (hwf e hD)⟩

/-- An instruction decoded at PC resolves its mode as the table step does: a B2 mode has no second operand byte to
differ in (R52, R70). -/
theorem resolveBytes_operandBytes (h : instrOf i.entry s.operand1 s.operand2 = some i) :
    resolveBytes i.entry.mode ((operandBytes i).getD 0 0) ((operandBytes i).getD 1 0) s.x =
      resolve i.entry.mode s := by
  rw [operandBytes_of_instrOf i _ _ h]
  cases i.entry.mode <;> rfl

theorem operandBytes_headD (h : instrOf i.entry s.operand1 s.operand2 = some i) :
    (operandBytes i).headD 0 = s.operand1 := by
  rw [operandBytes_of_instrOf i _ _ h]
  cases i.entry.mode <;> rfl

theorem loadDatum_eq_datum_resolve (h : instrOf i.entry s.operand1 s.operand2 = some i) :
    loadDatum i s = (resolve i.entry.mode s).datum s := by
  rw [← resolveBytes_operandBytes s i h]
  rfl

/-- An instruction decoded at PC does what its entry does there (R110). -/
theorem effect_eq_entryEffect (h : instrOf i.entry s.operand1 s.operand2 = some i) :
    effect i s = entryEffect i.entry s := by
  cases hk : i.entry.kind with
  | load =>
    rw [effect_of_load i s hk, entryEffect_of_load s _ hk, performLoad_eq_loadInto_datum,
      loadDatum_eq_datum_resolve s i h]
  | store => rw [effect_of_store i s hk, entryEffect_of_store s _ hk, operandBytes_headD s i h]

/-- Under any table a mapped opcode advances PC by its mode's length (R114). -/
theorem stepWith_pc_toNat (hr : s.run = .running) (hD : D s.opcodeByte = some e) (h : stepWith D s = .next t) :
    t.pc.toNat = (s.pc.toNat + e.mode.len) % 65536 := by
  rcases stepWith_cases D s t h with
    ⟨hh, -⟩ | ⟨-, hnone, -⟩ | ⟨r, m, -, hload, rfl⟩ | ⟨r, m, ea, -, hstore, -, rfl⟩
  · simp [hr] at hh
  · simp [hD] at hnone
  · obtain rfl : e = ⟨.load, r, m⟩ := by simpa [hD] using hload
    rw [performLoad_eq_loadInto_datum, loadInto_pc_toNat]
  · obtain rfl : e = ⟨.store, r, m⟩ := by simpa [hD] using hstore
    rw [storeTo_pc_toNat]

end

/-! ### The machine as the step at the default table -/

section
variable (s : State)

theorem step_eq_stepWith_dispatch : step s = stepWith dispatch s := by
  rcases step_cases s with ⟨hr, hs⟩ | ⟨hr, hD, hs⟩ | ⟨i, hr, hD, hi, hs⟩
  · rw [hs, stepWith_of_halted dispatch s hr]
  · rw [hs, stepWith_of_unmapped dispatch s hr hD]
  · rw [hs, exec_eq_effect, effect_eq_entryEffect s i hi,
      stepWith_of_wf_entry dispatch s i.entry hr hD (wf_of_dispatch _ _ hD)]

theorem step_completes : Completes (step s) := by
  rw [step_eq_stepWith_dispatch]
  exact stepWith_completes dispatch s (wf_of_dispatch s.opcodeByte)

theorem step_of_unmapped (hr : s.run = .running) (hD : dispatch s.opcodeByte = none) :
    step s = .next (enterHalt s.opcodeByte s) := by
  rw [step_eq_stepWith_dispatch, stepWith_of_unmapped dispatch s hr hD]

/-- At a mapped byte the machine stays Running and goes to the instruction behind it (R19, R114). -/
theorem step_of_mapped (e : Entry) (hr : s.run = .running) (hD : dispatch s.opcodeByte = some e) :
    ∃ t, step s = .next t ∧ t.run = .running ∧ t.pc.toNat = (s.pc.toNat + e.mode.len) % 65536 := by
  obtain ⟨t, ht⟩ := step_completes s
  have hw : stepWith dispatch s = .next t := by rw [← step_eq_stepWith_dispatch, ht]
  refine ⟨t, ht, ?_, stepWith_pc_toNat dispatch s t e hr hD hw⟩
  refine t.halted_or_running.resolve_left fun hh => ?_
  rcases (stepWith_run_halted_iff dispatch s t hw).1 hh with hsr | hnone
  · simp [hr] at hsr
  · simp [hD] at hnone

end

/-! ### Runs -/

section
variable (s t u : State) (n : Nat)

theorem runSteps_succ_of_step (h : step s = .next t) : runSteps (n + 1) s = runSteps n t := by
  simp only [runSteps, h]

theorem runSteps_of_halted (hr : s.run = .halted) : runSteps n s = .next s := by
  induction n with
  | zero => rfl
  | succ n ih => rw [runSteps_succ_of_step s s n (step_of_halted s hr), ih]

/-- A run that is Running at its end began so: Halted has no way out (R116). -/
theorem running_of_runSteps (h : runSteps n s = .next u) (hu : u.run = .running) : s.run = .running := by
  refine s.halted_or_running.resolve_left fun hr => ?_
  rw [runSteps_of_halted s n hr] at h
  cases h
  simp [hr] at hu

theorem runSteps_succ_of_unmapped (hr : s.run = .running) (hD : dispatch s.opcodeByte = none) :
    runSteps (n + 1) s = .next (enterHalt s.opcodeByte s) := by
  rw [runSteps_succ_of_step s _ n (step_of_unmapped s hr hD), runSteps_of_halted _ n (enterHalt_run s _)]

end

/-- From a PC above the zero page and at most two past `e`, three 0x00 bytes from `e` on halt the machine in as many
steps as there are bytes before `e`, and one: no step jumps over three bytes, and no Store reaches them (R122). -/
theorem runSteps_halts_at_zeros (e k : Nat) (he : e + 2 < 65536) (s : State) (hr : s.run = .running)
    (hlow : 256 ≤ s.pc.toNat) (hhigh : s.pc.toNat ≤ e + 2) (hk : e - s.pc.toNat ≤ k)
    (hz : ∀ a, e ≤ a → a ≤ e + 2 → s.memRead a = 0) : ∃ t, runSteps (k + 1) s = .next t ∧ t.run = .halted := by
  induction k generalizing s with
  | zero =>
    have hop : s.opcodeByte = 0 := hz s.pc.toNat (by omega) hhigh
    exact ⟨_, runSteps_succ_of_unmapped s 0 hr (by rw [hop]; rfl), enterHalt_run s _⟩
  | succ k ih =>
    cases hD : dispatch s.opcodeByte with
    | none => exact ⟨_, runSteps_succ_of_unmapped s (k + 1) hr hD, enterHalt_run s _⟩
    | some entry =>
      have hbefore : s.pc.toNat < e := by
        by_contra hge
        have hop : s.opcodeByte = 0 := hz s.pc.toNat (by omega) hhigh
        rw [hop] at hD
        cases hD
      obtain ⟨t, ht, htr, hpc⟩ := step_of_mapped s entry hr hD
      have hlen := Mode.len_eq_two_or_three entry.mode
      rw [runSteps_succ_of_step s t (k + 1) ht]
      refine ih t htr (by omega) (by omega) (by omega) fun a hea hae => ?_
      rw [step_memRead_above_zeroPage s t a ht (by omega), hz a hea hae]

/-! ### Traces -/

section
variable (s t u : State) (n m : Nat)

theorem emitted_of_halted (o : Result) (hr : s.run = .halted) : emitted s o = none := by
  simp only [emitted, hr]

theorem traceOfRun_succ_of_step (h : step s = .next t) :
    traceOfRun (n + 1) s = (emitted s (.next t)).toList ++ traceOfRun n t := by
  simp only [traceOfRun, h]

theorem traceOfRun_of_halted (hr : s.run = .halted) : traceOfRun n s = [] := by
  induction n with
  | zero => rfl
  | succ n ih =>
    rw [traceOfRun_succ_of_step s s n (step_of_halted s hr), emitted_of_halted s _ hr, ih]
    rfl

theorem traceOfRun_succ_of_running (hr : s.run = .running) (h : step s = .next t) :
    traceOfRun (n + 1) s = t.traceRecord :: traceOfRun n t := by
  rw [traceOfRun_succ_of_step s t n h, emitted_of_running s t hr]
  rfl

/-- A halt emits the unchanged registers, and Halted nothing more (R116, R118). -/
theorem traceOfRun_succ_of_unmapped (hr : s.run = .running) (hD : dispatch s.opcodeByte = none) :
    traceOfRun (n + 1) s = [s.traceRecord] := by
  rw [traceOfRun_succ_of_running s _ n hr (step_of_unmapped s hr hD), traceOfRun_of_halted _ n (enterHalt_run s _)]
  rfl

theorem traceOfRun_add (h : runSteps n s = .next u) : traceOfRun (n + m) s = traceOfRun n s ++ traceOfRun m u := by
  induction n generalizing s with
  | zero =>
    cases h
    rw [Nat.zero_add]
    rfl
  | succ n ih =>
    obtain ⟨t, ht⟩ := step_completes s
    rw [runSteps_succ_of_step s t n ht] at h
    rw [Nat.add_right_comm, traceOfRun_succ_of_step s t _ ht, traceOfRun_succ_of_step s t _ ht, ih t h,
      List.append_assoc]

/-- A run that is still Running has emitted one record a step (R118). -/
theorem traceOfRun_length (h : runSteps n s = .next u) (hu : u.run = .running) : (traceOfRun n s).length = n := by
  induction n generalizing s with
  | zero => rfl
  | succ n ih =>
    have hr := running_of_runSteps s u (n + 1) h hu
    obtain ⟨t, ht⟩ := step_completes s
    rw [runSteps_succ_of_step s t n ht] at h
    rw [traceOfRun_succ_of_running s t n hr ht, List.length_cons, ih t h]

/-- The record at index k of a run that is still Running is the state after k + 1 steps (R118). -/
theorem traceOfRun_getElem? (h : runSteps n s = .next u) (hu : u.run = .running) (k : Nat) (w : State) (hk : k < n)
    (hw : runSteps (k + 1) s = .next w) : (traceOfRun n s)[k]? = some w.traceRecord := by
  induction n generalizing s k with
  | zero => omega
  | succ n ih =>
    have hr := running_of_runSteps s u (n + 1) h hu
    obtain ⟨t, ht⟩ := step_completes s
    rw [runSteps_succ_of_step s t _ ht] at h hw
    rw [traceOfRun_succ_of_running s t n hr ht]
    cases k with
    | zero =>
      cases hw
      rfl
    | succ k => rw [List.getElem?_cons_succ, ih t h k (by omega) hw]

end

end Sys2Proof.Machine

/-! SUPPORT. The statements of the execution loop's family (43_execution_loop.md), settled. -/

namespace Sys2Proof.Machine

/-- Settles O28: the instruction decoded at PC does what the entry of its opcode byte does there. -/
theorem stepIsTableStep : Obligations.StepIsTableStep :=
  step_eq_stepWith_dispatch

/-- Settles O30: each of the step, the run and the trace has its equation in Halted. -/
theorem haltedIsTerminal : Obligations.HaltedIsTerminal := fun s hr =>
  ⟨fun D => ⟨stepWith_of_halted D s hr, emitted_of_halted s _ hr⟩,
    fun n => ⟨runSteps_of_halted s n hr, traceOfRun_of_halted s n hr⟩, State.resetWith_run⟩

/-- Settles O32: PC advances by LEN(mode), mode by mode. -/
theorem pcAdvancesByModeLength : Obligations.PcAdvancesByModeLength := by
  intro D s t e hr hD h
  rw [stepWith_pc_toNat D s t e hr hD h]
  cases e.mode <;> rfl

/-- Settles O33: a table that meets R56 has well-formed entries alone, and so has the default table. -/
theorem noStepStops : Obligations.NoStepStops :=
  ⟨fun D s hD => stepWith_completes D s (wf_of_meetsR56 D hD s.opcodeByte), step_completes⟩

/-- Settles O40: PC is at most e, so the three bytes lie ahead. -/
theorem zeroBytesEndARun : Obligations.ZeroBytesEndARun := by
  intro s e hr hlow hpc he h0 h1 h2
  have hz : ∀ a, e ≤ a → a ≤ e + 2 → s.memRead a = 0 := by
    intro a hea hae
    obtain rfl | rfl | rfl : a = e ∨ a = e + 1 ∨ a = e + 2 := by omega
    · exact h0
    · exact h1
    · exact h2
  obtain ⟨t, ht, hh⟩ := runSteps_halts_at_zeros e (e - s.pc.toNat) he s hr hlow (by omega) le_rfl hz
  exact ⟨_, t, le_rfl, ht, hh⟩

/-- Settles O41: LDA #d8 leaves memory and run alone, so every step meets 0xA9 again. -/
theorem runNeedNotEnd : Obligations.RunNeedNotEnd := by
  intro s hr hmem n
  obtain ⟨-, -, hlda⟩ := ldaImmediate
  induction n generalizing s with
  | zero => exact ⟨s, rfl, hr⟩
  | succ n ih =>
    rw [runSteps_succ_of_step s _ n (hlda s hr (hmem s.pc.toNat))]
    exact ih _ hr hmem

/-- Settles O44: the trace is the n records of the executed instructions and then the record of the halt; the image FF
is the case of no instruction. -/
theorem traceOfARun : Obligations.TraceOfARun := by
  refine ⟨fun _ => rfl, fun n s u h hu _ hD m => ?_, fun p m himage => ?_⟩
  · have hlen := traceOfRun_length s u n h hu
    have htrace : traceOfRun (n + 1 + m) s = traceOfRun n s ++ [u.traceRecord] := by
      rw [Nat.add_assoc, Nat.add_comm 1 m, traceOfRun_add s u n _ h, traceOfRun_succ_of_unmapped u m hu hD]
    rw [htrace]
    refine ⟨by rw [List.length_append, hlen, List.length_singleton], fun k w hk hw => ?_, ?_⟩
    · rw [List.getElem?_append_left (by omega), traceOfRun_getElem? s u n h hu k w hk hw]
    · rw [List.getElem?_append_right (by omega), hlen, Nat.sub_self, List.getElem?_cons_zero]
  · have hop : (State.resetWith p).opcodeByte = 0xFF := by
      have hread := Memory.read_loadImage_of_fits p.image [] p.origin.toNat 0 (by simp [himage]) (by simp [himage])
      exact hread.trans (by rw [himage]; rfl)
    rw [traceOfRun_succ_of_unmapped _ m (State.resetWith_run p) (by rw [hop]; rfl)]
    rfl

/-- Settles O27: the three bytes of the statement are the ones fetched. -/
theorem stepRunsDecodedInstruction : Obligations.StepRunsDecodedInstruction := by
  intro s i rest hr hd
  rw [← operand1_eq, ← operand2_eq] at hd
  rw [step_of_fetch_ok s i hr (fetchInstr_of_decode s i rest hd), exec_eq_effect]

/-- Settles O29: the halt is the step's answer, and its record is that of the unchanged registers. -/
theorem unmappedOpcodeHalts : Obligations.UnmappedOpcodeHalts := by
  have hhalts : ∀ (D : DispatchTable) (s : State), s.run = .running → D s.opcodeByte = none →
      stepWith D s = .next (enterHalt s.opcodeByte s) ∧ emitted s (stepWith D s) = some s.traceRecord := by
    intro D s hr hD
    have hstep := stepWith_of_unmapped D s hr hD
    exact ⟨hstep, by rw [hstep, emitted_of_running s _ hr]; rfl⟩
  refine ⟨hhalts, fun s => ?_⟩
  rw [step_eq_stepWith_dispatch]
  exact hhalts dispatch s

end Sys2Proof.Machine

/-! SUPPORT. The statement of the exceptions' family (60_exceptions.md), settled. -/

namespace Sys2Proof.Machine

/-- The tag is EndOfStream iff the offset of the halting address from the origin is past the image's end. -/
theorem haltReason_eq_endOfStream_iff (p : Params) (op : Byte) (addr : Addr) :
    haltReason p (op, addr) = .endOfStream ↔ p.image.length ≤ (addr - p.origin).toNat := by
  unfold haltReason
  split
  · next h => exact iff_of_true rfl h
  · next h => exact iff_of_false (by simp) h

/-- The byte at the offset of `addr` from `origin`, wrapped, is placed at `addr` (D10). -/
theorem add_offset_mod (origin addr : Addr) : (origin.toNat + (addr - origin).toNat) % 65536 = addr.toNat := by
  rw [← BitVec.toNat_add, BitVec.add_comm, BitVec.sub_add_cancel]

/-- The offset of `addr` from `origin` is the least index of an image byte placed at `addr`; the others lie whole turns
of memory further. -/
theorem offset_le_of_placed (origin addr : Addr) (i : Nat) (h : (origin.toNat + i) % 65536 = addr.toNat) :
    (addr - origin).toNat ≤ i := by
  have hoffset := add_offset_mod origin addr
  have hlt := (addr - origin).isLt
  omega

/-- Settles O45: the offset of the halting address is the least index placed there, so that an image of any length
occupies the address iff it is longer than the offset. -/
theorem haltReasonTellsImageExtent : Obligations.HaltReasonTellsImageExtent := by
  intro p op addr
  rw [haltReason_eq_endOfStream_iff]
  constructor
  · intro hpast i hi hplaced
    exact absurd (offset_le_of_placed p.origin addr i hplaced) (by omega)
  · intro hnone
    by_contra hshort
    exact hnone _ (by omega) (add_offset_mod p.origin addr)

end Sys2Proof.Machine

/-! SUPPORT. The statement of the first fetch after reset (70_reset_and_hazards.md R151), settled. -/

namespace Sys2Proof.Machine

/-- The opcode byte of the reset state is the image's first byte, or the 0x00 of zeroed memory for the empty image. -/
theorem resetWith_opcodeByte (p : Params) (hfit : p.image.length ≤ 65536) :
    (State.resetWith p).opcodeByte = p.image.headD 0 := by
  have hplaced := Memory.read_loadImage_of_fits p.image [] p.origin.toNat 0 hfit
  rw [State.opcodeByte, State.memRead_def, State.resetWith_mem, State.resetWith_pc]
  cases himage : p.image with
  | nil => rw [Memory.loadImage_nil, Memory.read_nil, List.headD_nil]
  | cons b bytes =>
    rw [himage] at hplaced
    exact hplaced (by simp)

/-- Settles O43: the first step sees the image's first byte, and a halt keeps the reset state's registers. -/
theorem firstFetchReadsTheImage : Obligations.FirstFetchReadsTheImage := by
  intro p hfit
  have hop := resetWith_opcodeByte p hfit
  refine ⟨hop, fun D hD => ?_⟩
  rw [← hop] at hD ⊢
  exact ⟨_, stepWith_of_unmapped D _ (State.resetWith_run p) hD, rfl, rfl, rfl, rfl, rfl, rfl, rfl⟩

end Sys2Proof.Machine
